-- ==== Sys2Proof/Word.lean ====
section
/-! DEFINITION. The word and byte types of the block (rules R7 and R8). -/

namespace Sys2Proof

/-- A register word: "Every data value is an unsigned 32-bit word unless stated otherwise" (R8). Bit `i` of the word
is `w.getLsbD i`, bit 0 the least significant (R7). -/
abbrev Word := BitVec 32

/-- One byte lane of the bus (R33). -/
abbrev Byte := BitVec 8

end Sys2Proof
end

