-- ==== Sys2Proof/Syntax.lean ====
section
/-! DEFINITION. The operations of the block, one constructor per row of spec/opcode_table.json, the request that
carries one, and the spec's own notation for requests (rules R51 to R66). -/

namespace Sys2Proof

/-- The access widths a request can carry: 1, 2, 4 and 8 bytes (R37, R54). -/
inductive Width where
  | b1 | b2 | b4 | b8
  deriving DecidableEq, Repr

/-- The width in bytes, `n` of rule R58. -/
def Width.bytes : Width → Nat
  | .b1 => 1
  | .b2 => 2
  | .b4 => 4
  | .b8 => 8

/-- An operation of the block (R60). -/
inductive Instr where
  /-- `RD_IN` (R67). -/
  | rdIn
  /-- `RD_OUT` (R68). -/
  | rdOut
  /-- `RD_DIR` (R69). -/
  | rdDir
  /-- `RD_BAD` (R70): the window offset and the width of an invalid read. -/
  | rdBad (off : BitVec 8) (sz : Width)
  /-- `WR_IN` (R74), with the data word it carries. -/
  | wrIn (wdata : Word)
  /-- `WR_OUT` (R75). -/
  | wrOut (wdata : Word)
  /-- `WR_DIR` (R76). -/
  | wrDir (wdata : Word)
  /-- `WR_BAD` (R77): the window offset, the width and the discarded data word of an invalid write. -/
  | wrBad (off : BitVec 8) (sz : Width) (wdata : Word)
  /-- `STIM` (R85): a pin index and the level reported for it (`true` is high, R55). -/
  | stim (pin : Nat) (lvl : Bool)
  /-- `RESET` (R121). -/
  | reset
  /-- `SAVE` (R94). -/
  | save
  /-- `RESTORE` (R96): the version, the saved `value` and the saved `direction`. -/
  | restore (ver : BitVec 8) (valueW dirW : Word)
  deriving DecidableEq, Repr

/-- A request as it is encoded: "one 16-bit descriptor `D[15:0]` followed by zero, one or two 32-bit operand words"
(R51). The spec gives words and no byte order for them, so the model keeps words (log 6). -/
structure Request where
  desc : BitVec 16
  operands : List Word
  deriving DecidableEq, Repr

/-- Why a request is refused by the decoder: the two reasons of rule R59, and an operand list of another length than
the class gives (R63; log 6). -/
inductive DecodeError where
  /-- A nonzero `RSV` field (R59, R61). -/
  | reservedBits
  /-- `CLS` is 110 or 111 (R59, R61). -/
  | reservedClass
  /-- The number of operand words is not the one that follows from `CLS` (R52, R63). -/
  | operandWords
  deriving DecidableEq, Repr

/-- The registers' names in the notation of rule R64. -/
inductive RegName where
  | IN | OUT | DIR
  deriving DecidableEq, Repr

/-- The spec's own notation for requests (R64). -/
inductive Asm where
  /-- `rd IN`, `rd OUT`, `rd DIR`. -/
  | rdReg (r : RegName)
  /-- `rd<.sz> @<off>`. -/
  | rd (sz : Width) (off : BitVec 8)
  /-- `wr IN, <w>`, `wr OUT, <w>`, `wr DIR, <w>`. -/
  | wrReg (r : RegName) (w : Word)
  /-- `wr<.sz> @<off>, <w>`. -/
  | wr (sz : Width) (off : BitVec 8) (w : Word)
  /-- `stim <pin>, <lvl>`. -/
  | stim (pin : BitVec 6) (lvl : Bool)
  /-- `reset`. -/
  | reset
  /-- `save`. -/
  | save
  /-- `restore <ver>, <v>, <d>`. -/
  | restore (ver : BitVec 8) (v d : Word)
  deriving DecidableEq, Repr

/-- The pseudo-instructions of rule R65. -/
inductive Pseudo where
  | drive (w : Word)
  | setdir (w : Word)
  | allin
  | rdval
  | nop
  deriving DecidableEq, Repr

end Sys2Proof
end

