-- ==== Sys2Proof/WellFormed.lean ====
section
/-! DEFINITION. Which terms of Instr are operations the encoding can name (rules R55, R59, R60). -/

namespace Sys2Proof

/-- The offset and width select a register: "exactly 0x000 (`IN`), 0x004 (`OUT`) and 0x008 (`DIR`) select a register,
and only for an aligned 4-byte access" (R32). -/
def selectsRegister (off : BitVec 8) (sz : Width) : Bool :=
  sz == .b4 && (off == 0x00#8 || off == 0x04#8 || off == 0x08#8)

/-- A well-formed operation: `RD_BAD` and `WR_BAD` are not an access that a specific row of their class takes (R59,
R60), and the pin index fits its 6-bit field (R55). -/
def Instr.wf : Instr → Bool
  | .rdBad off sz => !selectsRegister off sz
  | .wrBad off sz _ => !selectsRegister off sz
  | .stim pin _ => decide (pin < 64)
  | .rdIn | .rdOut | .rdDir | .wrIn _ | .wrOut _ | .wrDir _ | .reset | .save | .restore _ _ _ => true

end Sys2Proof
end

