-- ==== Sys2Proof/Decode.lean ====
section
/-! DEFINITION. The decoder of requests (rules R51 to R61), the encoder written from the same formats, the layout of a
request as one number, and the assembler notation (rules R64 and R65). -/

namespace Sys2Proof

/-! ## Fields (R53, R55, R57) -/

/-- `CLS = D[15:13]` (R51). -/
def fieldCls (D : BitVec 16) : BitVec 3 := D.extractLsb' 13 3

/-- `SZ = D[12:11]` of format B (R53). -/
def fieldSz (D : BitVec 16) : BitVec 2 := D.extractLsb' 11 2

/-- `OFF = D[7:0]` of format B (R53). -/
def fieldOff (D : BitVec 16) : BitVec 8 := D.extractLsb' 0 8

/-- `LVL = D[6]` of format S (R55). -/
def fieldLvl (D : BitVec 16) : Bool := D.getLsbD 6

/-- `PIN = D[5:0]` of format S (R55). -/
def fieldPin (D : BitVec 16) : BitVec 6 := D.extractLsb' 0 6

/-- `VER = D[7:0]` of format R (R57). -/
def fieldVer (D : BitVec 16) : BitVec 8 := D.extractLsb' 0 8

/-- `RSV = D[10:8]` of format B (R53). -/
def reservedB (D : BitVec 16) : BitVec 3 := D.extractLsb' 8 3

/-- `RSV = D[12:7]` of format S (R55). -/
def reservedS (D : BitVec 16) : BitVec 6 := D.extractLsb' 7 6

/-- `D[12:0]` of format N, all of it reserved (R56). -/
def reservedN (D : BitVec 16) : BitVec 13 := D.extractLsb' 0 13

/-- `RSV = D[12:8]` of format R (R57). -/
def reservedR (D : BitVec 16) : BitVec 5 := D.extractLsb' 8 5

/-- The width an `SZ` code names: `n = 1 << SZ` (R54, R58). -/
def widthOfCode (c : BitVec 2) : Width :=
  if c = 0b00#2 then .b1 else if c = 0b01#2 then .b2 else if c = 0b10#2 then .b4 else .b8

/-- The `SZ` code of a width (R54). -/
def codeOfWidth : Width → BitVec 2
  | .b1 => 0b00#2
  | .b2 => 0b01#2
  | .b4 => 0b10#2
  | .b8 => 0b11#2

/-! ## Decoding -/

/-- `MemRead(off, n)` of rule R9: the read operation at an offset and a width, the specific rows before `RD_BAD`
(R59). -/
def readAt (off : BitVec 8) (sz : Width) : Instr :=
  if sz = .b4 ∧ off = 0x00#8 then .rdIn
  else if sz = .b4 ∧ off = 0x04#8 then .rdOut
  else if sz = .b4 ∧ off = 0x08#8 then .rdDir
  else .rdBad off sz

/-- `MemWrite(off, n, v)` of rule R9: the write operation at an offset and a width (R59). -/
def writeAt (off : BitVec 8) (sz : Width) (w : Word) : Instr :=
  if sz = .b4 ∧ off = 0x00#8 then .wrIn w
  else if sz = .b4 ∧ off = 0x04#8 then .wrOut w
  else if sz = .b4 ∧ off = 0x08#8 then .wrDir w
  else .wrBad off sz w

/-- How many operand words a request of a class carries: "The length follows from `CLS` alone" (R52, R63). -/
def operandCount (cls : BitVec 3) : Nat :=
  if cls = 0b001#3 then 1 else if cls = 0b101#3 then 2 else 0

/-- An operation without operand words: refused when the request carries any. -/
def withoutOperands (i : Instr) : List Word → Except DecodeError Instr
  | [] => .ok i
  | _ :: _ => .error .operandWords

/-- An operation of one operand word (R53). -/
def withOneOperand (f : Word → Instr) : List Word → Except DecodeError Instr
  | [w] => .ok (f w)
  | [] | _ :: _ :: _ => .error .operandWords

/-- An operation of two operand words, in order (R57). -/
def withTwoOperands (f : Word → Word → Instr) : List Word → Except DecodeError Instr
  | [v, d] => .ok (f v d)
  | [] | [_] | _ :: _ :: _ :: _ => .error .operandWords

/-- The decoder of rule R59, its rows in the rule's order. Total: "each descriptor either names exactly one operation
or is refused". -/
def decode (r : Request) : Except DecodeError Instr :=
  if fieldCls r.desc = 0b000#3 then
    if reservedB r.desc ≠ 0#3 then .error .reservedBits
    else withoutOperands (readAt (fieldOff r.desc) (widthOfCode (fieldSz r.desc))) r.operands
  else if fieldCls r.desc = 0b001#3 then
    if reservedB r.desc ≠ 0#3 then .error .reservedBits
    else withOneOperand (writeAt (fieldOff r.desc) (widthOfCode (fieldSz r.desc))) r.operands
  else if fieldCls r.desc = 0b010#3 then
    if reservedS r.desc ≠ 0#6 then .error .reservedBits
    else withoutOperands (.stim (fieldPin r.desc).toNat (fieldLvl r.desc)) r.operands
  else if fieldCls r.desc = 0b011#3 then
    if reservedN r.desc ≠ 0#13 then .error .reservedBits else withoutOperands .reset r.operands
  else if fieldCls r.desc = 0b100#3 then
    if reservedN r.desc ≠ 0#13 then .error .reservedBits else withoutOperands .save r.operands
  else if fieldCls r.desc = 0b101#3 then
    if reservedR r.desc ≠ 0#5 then .error .reservedBits
    else withTwoOperands (.restore (fieldVer r.desc)) r.operands
  else .error .reservedClass

/-! ## Encoding -/

/-- Format B, `00Wss000oooooooo` (R53). -/
def formatB (cls : BitVec 3) (sz : Width) (off : BitVec 8) : BitVec 16 := cls ++ codeOfWidth sz ++ 0#3 ++ off

/-- Format S, `010000000lpppppp` (R55). -/
def formatS (lvl : Bool) (pin : BitVec 6) : BitVec 16 := 0b010#3 ++ 0#6 ++ BitVec.ofBool lvl ++ pin

/-- Format N (R56). -/
def formatN (cls : BitVec 3) : BitVec 16 := cls ++ 0#13

/-- Format R, `10100000vvvvvvvv` (R57). -/
def formatR (ver : BitVec 8) : BitVec 16 := 0b101#3 ++ 0#5 ++ ver

/-- The request of an operation, from the formats of rules R53 to R57 and the map of rule R60. -/
def encode : Instr → Request
  | .rdIn => ⟨formatB 0b000#3 .b4 0x00#8, []⟩
  | .rdOut => ⟨formatB 0b000#3 .b4 0x04#8, []⟩
  | .rdDir => ⟨formatB 0b000#3 .b4 0x08#8, []⟩
  | .rdBad off sz => ⟨formatB 0b000#3 sz off, []⟩
  | .wrIn w => ⟨formatB 0b001#3 .b4 0x00#8, [w]⟩
  | .wrOut w => ⟨formatB 0b001#3 .b4 0x04#8, [w]⟩
  | .wrDir w => ⟨formatB 0b001#3 .b4 0x08#8, [w]⟩
  | .wrBad off sz w => ⟨formatB 0b001#3 sz off, [w]⟩
  | .stim pin lvl => ⟨formatS lvl (BitVec.ofNat 6 pin), []⟩
  | .reset => ⟨formatN 0b011#3, []⟩
  | .save => ⟨formatN 0b100#3, []⟩
  | .restore ver v d => ⟨formatR ver, [v, d]⟩

/-! ## A request as one number -/

/-- The length of a request in bits: 16, 48 or 80 (R63). -/
def Request.bitLength (r : Request) : Nat := 16 + 32 * r.operands.length

/-- The request whose bits are the low `nbits` bits of `w`: the descriptor in bits 15:0, then the operand words its
class gives, the first in bits 47:16 and the second in bits 79:48 (R51, R63). DESIGN CHOICE (log 23): R63 gives a
request exactly the length of its class and is silent on a bit string of another length. Here bits missing from a shorter
one are zeros (an opcode-table row gives its operand words no bits), and bits of a longer one past the request's length
are dropped. -/
def Request.ofBits (nbits w : Nat) : Request :=
  let bits := w % 2 ^ nbits
  let desc := BitVec.ofNat 16 bits
  ⟨desc, (List.range (operandCount (fieldCls desc))).map fun k => BitVec.ofNat 32 (bits >>> (16 + 32 * k))⟩

/-- What the decoder reads from an opcode-table row's bits, laid out by `Request.ofBits` (log 23). -/
def decodeTableWord (nbits w : Nat) : Option Instr :=
  match decode (Request.ofBits nbits w) with
  | .ok i => some i
  | .error _ => none

/-! ## Assembler notation (R64, R65) -/

/-- The offset a register's name stands for: "`IN`, `OUT` and `DIR` stand for `@0x000`, `@0x004` and `@0x008`" (R64). -/
def RegName.offset : RegName → BitVec 8
  | .IN => 0x00#8
  | .OUT => 0x04#8
  | .DIR => 0x08#8

/-- The request of a line of assembler notation, as the table of rule R64 gives its descriptor. -/
def Asm.request : Asm → Request
  | .rdReg .IN => ⟨0x1000#16, []⟩
  | .rdReg .OUT => ⟨0x1004#16, []⟩
  | .rdReg .DIR => ⟨0x1008#16, []⟩
  | .rd sz off => ⟨formatB 0b000#3 sz off, []⟩
  | .wrReg .IN w => ⟨0x3000#16, [w]⟩
  | .wrReg .OUT w => ⟨0x3004#16, [w]⟩
  | .wrReg .DIR w => ⟨0x3008#16, [w]⟩
  | .wr sz off w => ⟨formatB 0b001#3 sz off, [w]⟩
  | .stim pin lvl => ⟨0x4000#16 ||| ((BitVec.ofBool lvl).setWidth 16 <<< 6) ||| pin.setWidth 16, []⟩
  | .reset => ⟨0x6000#16, []⟩
  | .save => ⟨0x8000#16, []⟩
  | .restore ver v d => ⟨0xA000#16 ||| ver.setWidth 16, [v, d]⟩

/-- The expansion of a pseudo-instruction, "each expanding to exactly one request" (R65). -/
def Pseudo.expand : Pseudo → Asm
  | .drive w => .wrReg .OUT w
  | .setdir w => .wrReg .DIR w
  | .allin => .wrReg .DIR 0#32
  | .rdval => .rdReg .IN
  | .nop => .wrReg .IN 0#32

end Sys2Proof
end

