-- ==== Sys2Proof/Config.lean ====
section
/-! DEFINITION. The parameters of one instance, fixed when it is constructed (rules R5 and R19), and the constants of
the spec. -/

namespace Sys2Proof

/-- The configuration of an instance: "immutable thereafter" (R19). Plain data, carried by the state it configures
and changed by no step (log 1). -/
structure Config where
  /-- `PIN_COUNT`, legal from 1 to 32 (R5, R119). -/
  pinCount : Nat
  /-- The pins that have an output-line binding: `OUT_BOUND[i]` is membership (R5, R19). -/
  outBound : List Nat
  /-- The pins that have a direction-line binding: `DIR_BOUND[i]` is membership (R5, R19). -/
  dirBound : List Nat
  /-- `GPIO_BASE`, the platform address of the window, an OPEN parameter (R31, D7). -/
  gpioBase : Nat
  /-- `DIR_TO_INPUT_CLEARS`, default false (I1, D28): with it true, a `DIR` write clears the `value` bits of the pins
  that become inputs. -/
  dirToInputClears : Bool
  deriving DecidableEq, Repr

/-- `OUT_BOUND[i]` (R5). -/
def Config.outBoundAt (c : Config) (i : Nat) : Bool := c.outBound.contains i

/-- `DIR_BOUND[i]` (R5). -/
def Config.dirBoundAt (c : Config) (i : Nat) : Bool := c.dirBound.contains i

/-- The configuration of `State.reset`: `PIN_COUNT` is its default 32 (R5, R118). DESIGN CHOICE (log 2): every pin has
both bindings (the convention of 95_test_vectors.md) and `GPIO_BASE` is 0. -/
def Config.standard : Config where
  pinCount := 32
  outBound := List.range 32
  dirBound := List.range 32
  gpioBase := 0
  dirToInputClears := false

/-- `WINDOW_SIZE` (R5, R30). -/
def windowSize : Nat := 0x100

/-- `SNAPSHOT_VERSION` (R5, R95). -/
def snapshotVersion : BitVec 8 := 1#8

end Sys2Proof
end

