-- ==== Sys2Proof/Machine/State.lean ====
section
/-! DEFINITION. The state of one instance and its two sides: the requests delivered to it and the events it has emitted
(rules R10, R11, R15 to R19), with the reasons a request has no step. -/

namespace Sys2Proof.Machine

/-- The diagnostic codes of rule R100. -/
inductive DiagCode where
  | rdBadSize | rdMisaligned | rdBadOffset
  | wrBadSize | wrMisaligned | wrBadOffset
  | stimPinRange | restoreBadVersion
  deriving DecidableEq, Repr

/-- The output events of a step (R11). -/
inductive Event where
  /-- `ReadData(w)`: the data word a bus read returns. -/
  | readData (w : Word)
  /-- `OutNotify(i, b)`: the output-line binding of pin `i` is invoked with level `b`. -/
  | outNotify (pin : Nat) (level : Bool)
  /-- `DirNotify(i, b)`: the direction-line binding of pin `i` is invoked with direction `b` (`true`: now output). -/
  | dirNotify (pin : Nat) (isOutput : Bool)
  /-- `Diag(code)`: a guest-visible diagnostic, which "carries only the code" (R100). -/
  | diag (code : DiagCode)
  /-- `SnapshotData(ver, v, d)`: the snapshot a save exports (R94, R95). -/
  | snapshotData (ver : BitVec 8) (valueW dirW : Word)
  deriving DecidableEq, Repr

/-- One item the environment delivers to the block. Only a serialized request has a step (R44, R117); the others are
named so that a run that makes one is refused by name (log 7). -/
inductive Delivery where
  /-- A request delivered after the one before it completed (R42). -/
  | request (r : Request)
  /-- A request that overlaps the one before it (R44). -/
  | overlapping (r : Request)
  /-- A request a consumer makes while it is being notified by this instance (R90). -/
  | reentrant (r : Request)
  /-- An instruction fetch from the window (R47). -/
  | instructionFetch (off : BitVec 8)
  deriving DecidableEq, Repr

/-- The state of one instance. `value` and `direction` are all the state the block has (R15); `cfg` is its
configuration, which no step changes (R19, log 1); `trace` and `pending` are the block's output and input sides
(log 3, log 4). -/
structure State where
  /-- The configuration fixed at construction (R19). -/
  cfg : Config
  /-- One bit per pin: the observed level of an input pin, the driven level of an output pin (R16). -/
  value : Word
  /-- One bit per pin: "1 = output, 0 = input" (R17). -/
  direction : Word
  /-- The output events of the run, oldest first (R10, R11, D27). -/
  trace : List Event
  /-- The items delivered and not yet taken, oldest first, in whatever order the environment chose (R42, R43). -/
  pending : List Delivery
  deriving DecidableEq, Repr

/-- The machine's faults: none. "No error condition is fatal. None traps, halts, resets or disables the block" (R102),
and "A diagnostic is an output event, not a fault of the model" (R117). -/
inductive Fault where
  deriving DecidableEq, Repr

/-- Why a request, or a construction, has no step (R117). Each is safe: the model stops where the spec gives no
meaning. -/
inductive Refusal where
  /-- An operation without a meaning in this model: raised by `exec`'s refused arms, of which there are none. Safe. -/
  | notModelled (mnemonic : String)
  /-- A reserved encoding (R61), or a wrong number of operand words (R63, log 6): raised by `step`. Safe. -/
  | undecodable (e : DecodeError)
  /-- An overlapping request (R44): raised by `step`. Safe. -/
  | overlappingRequest
  /-- A re-entrant request (R90): raised by `step`. Safe. -/
  | reentrantRequest
  /-- An instruction fetch from the window (R47): raised by `step`. Safe. -/
  | instructionFetch
  /-- Construction with `PIN_COUNT` outside 1 to 32 (R119): raised by `construct`. Safe. -/
  | pinCountRange
  /-- Construction with a binding for a pin at or above `PIN_COUNT` (R119): raised by `construct`. Safe. -/
  | bindingRange
  deriving DecidableEq, Repr

/-- The block right after reset (R121, R123): both words 0, nothing emitted (R122) and nothing delivered. The
configuration is `Config.standard` (log 2). -/
def State.reset : State where
  cfg := Config.standard
  value := 0#32
  direction := 0#32
  trace := []
  pending := []

end Sys2Proof.Machine
end

