-- ==== Sys2Proof/Machine/Ops.lean ====
section
/-! DEFINITION. The shared operations: writes of the two words, output events and diagnostics, the pin mask, bits of a
word, the register map with its byte lanes, the input side, and the check of a configuration. -/

namespace Sys2Proof.Machine

/-! ## State updates -/

/-- `value <- v` (R8). -/
def State.setValue (s : State) (v : Word) : State := { s with value := v }

/-- `direction <- d` (R8). -/
def State.setDirection (s : State) (d : Word) : State := { s with direction := d }

/-- `emit E` for each event of a list, in order (R9, R11). -/
def State.emit (s : State) (es : List Event) : State := { s with trace := s.trace ++ es }

/-- `raise Diag(code)` (R9): the block's only error mechanism, in the place of taking an exception. "It does not trap,
stop or undo anything", and there is nothing to return from (R104, R105). -/
def State.raiseDiag (s : State) (code : DiagCode) : State := s.emit [.diag code]

/-- The number of a diagnostic code (R100). -/
def DiagCode.number : DiagCode → Nat
  | .rdBadSize => 1
  | .rdMisaligned => 2
  | .rdBadOffset => 3
  | .wrBadSize => 4
  | .wrMisaligned => 5
  | .wrBadOffset => 6
  | .stimPinRange => 7
  | .restoreBadVersion => 8

/-! ## Words and bits -/

/-- `PIN_MASK` (R6). -/
def pinMask (c : Config) : Word :=
  if c.pinCount = 32 then 0xFFFFFFFF#32 else (1#32 <<< c.pinCount) - 1#32

/-- `w[i] <- b`: the word with bit `i` set or cleared (R7, R86). -/
def setBit (w : Word) (i : Nat) (b : Bool) : Word :=
  if b then w ||| (1#32 <<< i) else w &&& ~~~(1#32 <<< i)

/-- Byte lane `k` of a register word: "byte `k` (k = 0..3) ... carries bits `[8k+7:8k]`" (R33). -/
def laneByte (w : Word) (k : Nat) : Byte := w.extractLsb' (8 * k) 8

/-- The bytes a read of `n` bytes returns when its data word is `w`, lowest lane first (R33); lanes above the word are
zero (R70: "all n bytes zero"). -/
def replyBytes (n : Nat) (w : Word) : List Byte := (List.range n).map (laneByte w)

/-! ## The register map (R21) -/

/-- The word a read of `IN` returns (R21, R23). -/
def State.readIn (s : State) : Word := s.value

/-- The word a read of `OUT` returns: not the word last written, but `value` (R21, R24, R68). -/
def State.readOut (s : State) : Word := s.value

/-- The word a read of `DIR` returns (R21, R25). -/
def State.readDir (s : State) : Word := s.direction

/-- The word of the register at a window offset, and none where no register is (R21, R32). -/
def registerAt (s : State) (off : BitVec 8) : Option Word :=
  if off = 0x00#8 then some s.readIn
  else if off = 0x04#8 then some s.readOut
  else if off = 0x08#8 then some s.readDir
  else none

/-- The byte that lies at a window offset in the little-endian lane order, and none outside the registers (R33). No
valid access reads one byte alone (R34); this is the view in which the window is a range of bytes. -/
def windowByte (s : State) (off : BitVec 8) : Option Byte :=
  (registerAt s (off &&& 0xFC#8)).map fun w => laneByte w (off &&& 0x03#8).toNat

/-! ## The window in the platform's address map (R31) -/

/-- The window offset of a platform address: "`off = a - GPIO_BASE`" when "`GPIO_BASE <= a < GPIO_BASE + 0x100`", and
none for an access that does not reach the block. -/
def windowOffset (c : Config) (a : Nat) : Option (BitVec 8) :=
  if c.gpioBase ≤ a ∧ a < c.gpioBase + windowSize then some (BitVec.ofNat 8 (a - c.gpioBase)) else none

/-- The environment delivers an item, behind those already delivered (R42). -/
def State.deliver (s : State) (d : Delivery) : State := { s with pending := s.pending ++ [d] }

/-- A bus read of a width at a platform address: it reaches the block as a request when the address is in the window,
and not at all otherwise (R31). -/
def busRead (s : State) (a : Nat) (sz : Width) : State :=
  match windowOffset s.cfg a with
  | some off => s.deliver (.request (encode (readAt off sz)))
  | none => s

/-- A bus write of a width at a platform address (R31). -/
def busWrite (s : State) (a : Nat) (sz : Width) (w : Word) : State :=
  match windowOffset s.cfg a with
  | some off => s.deliver (.request (encode (writeAt off sz w)))
  | none => s

/-! ## Taking the next request -/

/-- What the block makes of a delivered item: the operation it names, or the reason it has no step (R61, R44, R90,
R47, R117). -/
def accept : Delivery → Except Refusal Instr
  | .request r =>
    match decode r with
    | .ok i => .ok i
    | .error e => .error (.undecodable e)
  | .overlapping _ => .error .overlappingRequest
  | .reentrant _ => .error .reentrantRequest
  | .instructionFetch _ => .error .instructionFetch

/-- The oldest item delivered, as `accept` takes it, with the state in which it is no longer waiting; none when the
environment has delivered nothing. -/
def fetch (s : State) : Option (Except Refusal Instr × State) :=
  match s.pending with
  | [] => none
  | d :: rest => some (accept d, { s with pending := rest })

/-! ## Configurations (R119) -/

/-- `PIN_COUNT` is in 1 to 32 (R5, R119). -/
def pinCountOk (c : Config) : Bool := decide (1 ≤ c.pinCount ∧ c.pinCount ≤ 32)

/-- No binding names a pin index at or above `PIN_COUNT` (R119). -/
def bindingsOk (c : Config) : Bool :=
  c.outBound.all (fun i => decide (i < c.pinCount)) && c.dirBound.all (fun i => decide (i < c.pinCount))

/-- The configurations an instance can be constructed from (R119). -/
def configOk (c : Config) : Bool := pinCountOk c && bindingsOk c

end Sys2Proof.Machine
end

