-- ==== Sys2Proof/Machine/Flags.lean ====
section
/-! DEFINITION. The block has "no status flags or condition codes" (R20). What stands in their place, the condition of a
request that the outside sees, is the choice of its diagnostic: the checks of a bus access and their order (rules R36,
R70, R77, R106). -/

namespace Sys2Proof.Machine

/-- `access_ok(off, n) = (n == 4) && (off[1:0] == 0)` (R36). -/
def accessOk (off : BitVec 8) (sz : Width) : Bool := sz.bytes == 4 && off.extractLsb' 0 2 == 0#2

/-- The diagnostic of an invalid read: the width, then the alignment, then the offset (R70, R106). -/
def readDiag (off : BitVec 8) (sz : Width) : DiagCode :=
  if sz.bytes ≠ 4 then .rdBadSize
  else if off.extractLsb' 0 2 ≠ 0#2 then .rdMisaligned
  else .rdBadOffset

/-- The diagnostic of an invalid write: the width, then the alignment, then the offset (R77, R106). -/
def writeDiag (off : BitVec 8) (sz : Width) : DiagCode :=
  if sz.bytes ≠ 4 then .wrBadSize
  else if off.extractLsb' 0 2 ≠ 0#2 then .wrMisaligned
  else .wrBadOffset

end Sys2Proof.Machine
end

