-- ==== Sys2Proof/Machine/BusRead.lean ====
section
/-! DEFINITION. The bus reads (40_bus_read.md, rules R67 to R72). -/

namespace Sys2Proof.Machine

/-- `RD_IN` (R67). -/
def execRdIn (s : State) : Host.Outcome State Fault Refusal := .next (s.emit [.readData s.readIn])

/-- `RD_OUT` (R68). -/
def execRdOut (s : State) : Host.Outcome State Fault Refusal := .next (s.emit [.readData s.readOut])

/-- `RD_DIR` (R69). -/
def execRdDir (s : State) : Host.Outcome State Fault Refusal := .next (s.emit [.readData s.readDir])

/-- `RD_BAD` (R70): one diagnostic, then the word 0. -/
def execRdBad (off : BitVec 8) (sz : Width) (s : State) : Host.Outcome State Fault Refusal :=
  .next ((s.raiseDiag (readDiag off sz)).emit [.readData 0#32])

end Sys2Proof.Machine
end

