-- ==== Sys2Proof/Machine/LinePropagation.lean ====
section
/-! DEFINITION. The edge detector and the output-line multiplexer (rules R80 to R84), and the level a consumer last
received (rule R28). -/

namespace Sys2Proof.Machine

/-- `route_out(i, b)` (R82): an unbound pin's notification goes nowhere. -/
def routeOut (c : Config) (i : Nat) (b : Bool) : List Event := if c.outBoundAt i then [.outNotify i b] else []

/-- `route_dir(i, b)` (R82). -/
def routeDir (c : Config) (i : Nat) (b : Bool) : List Event := if c.dirBoundAt i then [.dirNotify i b] else []

/-- The pins below `PIN_COUNT` whose bit of `changed` is set, "in `0..PIN_COUNT-1` ascending" (R80, R81). -/
def changedPins (c : Config) (changed : Word) : List Nat := (List.range c.pinCount).filter fun i => changed.getLsbD i

/-- `edge_out(prev_value, new_value, direction)` (R80). -/
def edgeOut (c : Config) (prev new direction : Word) : List Event :=
  (changedPins c ((prev ^^^ new) &&& direction)).flatMap fun i => routeOut c i (new.getLsbD i)

/-- `edge_dir(prev_direction, new_direction)` (R81). -/
def edgeDir (c : Config) (prev new : Word) : List Event :=
  (changedPins c (prev ^^^ new)).flatMap fun i => routeDir c i (new.getLsbD i)

/-- The level pin `i`'s output consumer holds after one more event. -/
def knownAfter (i : Nat) (known : Option Bool) : Event → Option Bool
  | .outNotify j b => if j = i then some b else known
  | .readData _ | .dirNotify _ _ | .diag _ | .snapshotData _ _ _ => known

/-- `known[i]`: "the argument of the last `OutNotify(i, b)` event" of a trace (R28, R128); none before the first. The
block never reads it. -/
def lastOutLevel (i : Nat) (trace : List Event) : Option Bool := trace.foldl (knownAfter i) none

end Sys2Proof.Machine
end

