-- ==== Sys2Proof/Machine/Operands.lean ====
section
/-! DEFINITION. The words an operation computes from its operand words and the state: the direction-masked write, the
masked direction and the bits a direction change may clear (rules R75, R76, R97). The fields themselves are taken from
the descriptor by Decode.lean (rule R58). -/

namespace Sys2Proof.Machine

/-- `(value & ~direction) | (WDATA & direction)`, the direction_masked_write_logic (R2, R75). -/
def maskedWrite (value direction wdata : Word) : Word := (value &&& ~~~direction) ||| (wdata &&& direction)

/-- A word with the bits at or above `PIN_COUNT` dropped (R76, R97, C1). -/
def maskPins (c : Config) (w : Word) : Word := w &&& pinMask c

/-- `value` after a `DIR` write: kept (R76, D28), or, where the configuration takes the other reading of I1, with the
bits of the pins that become inputs cleared. -/
def valueAfterDir (c : Config) (value prevDirection newDirection : Word) : Word :=
  if c.dirToInputClears then value &&& ~~~(prevDirection &&& ~~~newDirection) else value

end Sys2Proof.Machine
end

