-- ==== Sys2Proof/Machine/BusWrite.lean ====
section
/-! DEFINITION. The bus writes (41_bus_write.md, rules R73 to R79). Each write commits before its notifications (R83). -/

namespace Sys2Proof.Machine

/-- `WR_IN` (R74): a defined no-op, without a diagnostic (log 11). -/
def execWrIn (_wdata : Word) (s : State) : Host.Outcome State Fault Refusal := .next s

/-- `WR_OUT` (R75). -/
def execWrOut (wdata : Word) (s : State) : Host.Outcome State Fault Refusal :=
  let prevValue := s.value
  let s' := s.setValue (maskedWrite s.value s.direction wdata)
  .next (s'.emit (edgeOut s'.cfg prevValue s'.value s'.direction))

/-- `WR_DIR` (R76), with the parameter of I1 for `value` (log 8). -/
def execWrDir (wdata : Word) (s : State) : Host.Outcome State Fault Refusal :=
  let prevDirection := s.direction
  let newDirection := maskPins s.cfg wdata
  let s' := (s.setDirection newDirection).setValue (valueAfterDir s.cfg s.value prevDirection newDirection)
  .next (s'.emit (edgeDir s'.cfg prevDirection s'.direction))

/-- `WR_BAD` (R77): one diagnostic, and the data word is discarded. -/
def execWrBad (off : BitVec 8) (sz : Width) (_wdata : Word) (s : State) : Host.Outcome State Fault Refusal :=
  .next (s.raiseDiag (writeDiag off sz))

end Sys2Proof.Machine
end

