-- ==== Sys2Proof/Machine/Lifecycle.lean ====
section
/-! DEFINITION. Reset and construction (70_reset_and_hazards.md, rules R118 to R124). -/

namespace Sys2Proof.Machine

/-- `RESET` (R121): both words to 0, with no event (R122) and the configuration unchanged. -/
def execReset (s : State) : Host.Outcome State Fault Refusal := .next ((s.setValue 0#32).setDirection 0#32)

/-- The state of a new instance: both words 0 (R118), no event (R120), no request delivered yet. -/
def freshInstance (c : Config) : State where
  cfg := c
  value := 0#32
  direction := 0#32
  trace := []
  pending := []

/-- Construction from a configuration (R118), refused for a pin count out of range or a binding out of range (R119). -/
def construct (c : Config) : Host.Outcome State Fault Refusal :=
  if pinCountOk c = false then .refused .pinCountRange
  else if bindingsOk c = false then .refused .bindingRange
  else .next (freshInstance c)

end Sys2Proof.Machine
end

