-- ==== Sys2Proof/Machine/Snapshot.lean ====
section
/-! DEFINITION. Snapshot save and restore (43_snapshot.md, rules R94 to R99). -/

namespace Sys2Proof.Machine

/-- `SAVE` (R94): the version, then `value`, then `direction` (R95). -/
def execSave (s : State) : Host.Outcome State Fault Refusal :=
  .next (s.emit [.snapshotData snapshotVersion s.value s.direction])

/-- `RESTORE` (R96): both words at once, masked (R97) and silent (R98), or a diagnostic for another version. -/
def execRestore (ver : BitVec 8) (valueW dirW : Word) (s : State) : Host.Outcome State Fault Refusal :=
  if ver ≠ snapshotVersion then .next (s.raiseDiag .restoreBadVersion)
  else .next ((s.setValue (maskPins s.cfg valueW)).setDirection (maskPins s.cfg dirW))

end Sys2Proof.Machine
end

