-- ==== Sys2Proof/Machine/Stimulus.lean ====
section
/-! DEFINITION. Input stimulus (42_line_propagation.md, rules R85 to R89). -/

namespace Sys2Proof.Machine

/-- `STIM` (R85): rejected out of range (R88), taken on an input pin (R86), discarded on an output pin (R87), and
silent in every case (R89). -/
def execStim (pin : Nat) (lvl : Bool) (s : State) : Host.Outcome State Fault Refusal :=
  if s.cfg.pinCount ≤ pin then .next (s.raiseDiag .stimPinRange)
  else if s.direction.getLsbD pin = false then .next (s.setValue (setBit s.value pin lvl))
  else .next s

end Sys2Proof.Machine
end

