-- ==== Sys2Proof/Machine/Dispatch.lean ====
section
/-! DEFINITION. One arm per operation, each one direct call of its meaning. -/

namespace Sys2Proof.Machine

def exec (i : Instr) (s : State) : Host.Outcome State Fault Refusal :=
  match i with
  | .rdIn => Sys2Proof.Machine.execRdIn s
  | .rdOut => Sys2Proof.Machine.execRdOut s
  | .rdDir => Sys2Proof.Machine.execRdDir s
  | .rdBad off sz => Sys2Proof.Machine.execRdBad off sz s
  | .wrIn wdata => Sys2Proof.Machine.execWrIn wdata s
  | .wrOut wdata => Sys2Proof.Machine.execWrOut wdata s
  | .wrDir wdata => Sys2Proof.Machine.execWrDir wdata s
  | .wrBad off sz wdata => Sys2Proof.Machine.execWrBad off sz wdata s
  | .stim pin lvl => Sys2Proof.Machine.execStim pin lvl s
  | .reset => Sys2Proof.Machine.execReset s
  | .save => Sys2Proof.Machine.execSave s
  | .restore ver valueW dirW => Sys2Proof.Machine.execRestore ver valueW dirW s

end Sys2Proof.Machine
end

