-- ==== Sys2Proof/Machine/Step.lean ====
section
/-! DEFINITION. One step: the block takes the oldest request delivered and handles it to completion (rules R10, R38,
R42). -/

namespace Sys2Proof.Machine

/-- One atomic step. With nothing delivered the block waits, its state unchanged (R116, log 5); an item without a
meaning has no step (R117). -/
def step (s : State) : Host.Outcome State Fault Refusal :=
  match fetch s with
  | none => .next s
  | some (.error r, _) => .refused r
  | some (.ok i, s') => exec i s'

/-- The state in which the very next step takes the request whose bits are the low `nbits` bits of `w`: the request is
put before those already delivered (log 4), laid out by `Request.ofBits` (log 23). -/
def State.withFetchWord (s : State) (nbits w : Nat) : State :=
  { s with pending := .request (Request.ofBits nbits w) :: s.pending }

end Sys2Proof.Machine
end

