-- ==== Sys2Proof/Machine/Instances.lean ====
section
/-! DEFINITION. Several controller instances side by side (rule R49): each has its own state and configuration, and one
of them steps at a time. -/

namespace Sys2Proof.Machine

/-- Instance `k` takes one step; the others stay as they are. A position that names no instance steps nothing. -/
def stepInstance (k : Nat) (sys : List State) : Host.Outcome (List State) Fault Refusal :=
  match sys[k]? with
  | none => .next sys
  | some s =>
    match step s with
    | .next s' => .next (sys.set k s')
    | .fault f => .fault f
    | .refused r => .refused r

end Sys2Proof.Machine
end

