-- ==== Sys2Proof/Safety.lean ====
section
/-! DEFINITION. What counts as a legal state, and how the events of a run are spoken of in statements. -/

namespace Sys2Proof.Machine

/-- "`(value & ~PIN_MASK) == 0` and `(direction & ~PIN_MASK) == 0`" (R18). -/
def State.HighBitsClear (s : State) : Prop :=
  s.value &&& ~~~pinMask s.cfg = 0#32 ∧ s.direction &&& ~~~pinMask s.cfg = 0#32

/-- The invariant of every state an instance reaches: a configuration that construction accepts (R119) and the clear
high bits of rule R18. -/
def State.Inv (s : State) : Prop := configOk s.cfg = true ∧ s.HighBitsClear

/-- The event is a diagnostic. -/
def Event.isDiag : Event → Bool
  | .diag _ => true
  | .readData _ | .outNotify _ _ | .dirNotify _ _ | .snapshotData _ _ _ => false

/-- The event is a notification of an output-line binding. -/
def Event.isOutNotify : Event → Bool
  | .outNotify _ _ => true
  | .readData _ | .dirNotify _ _ | .diag _ | .snapshotData _ _ _ => false

/-- The event is a notification of a direction-line binding. -/
def Event.isDirNotify : Event → Bool
  | .dirNotify _ _ => true
  | .readData _ | .outNotify _ _ | .diag _ | .snapshotData _ _ _ => false

/-- The event carries data out: a read's word or a snapshot. -/
def Event.isData : Event → Bool
  | .readData _ | .snapshotData _ _ _ => true
  | .outNotify _ _ | .dirNotify _ _ | .diag _ => false

/-- The pin an event notifies, if it is a notification. -/
def Event.notifiedPin : Event → Option Nat
  | .outNotify i _ | .dirNotify i _ => some i
  | .readData _ | .diag _ | .snapshotData _ _ _ => none

/-- "no `Diag` event in the trace" (R117): the run made no invalid access. -/
def DiagFree (trace : List Event) : Prop := ∀ e ∈ trace, e.isDiag = false

/-- Operations handled one after the other, each seeing "the state left by all operations before it" (R42). -/
def runAll : List Instr → State → Host.Outcome State Fault Refusal
  | [], s => .next s
  | i :: is, s =>
    match exec i s with
    | .next t => runAll is t
    | .fault f => .fault f
    | .refused r => .refused r

/-- The operation is a bus read, valid or not (40_bus_read.md). -/
def isRead : Instr → Bool
  | .rdIn | .rdOut | .rdDir | .rdBad _ _ => true
  | .wrIn _ | .wrOut _ | .wrDir _ | .wrBad _ _ _ | .stim _ _ | .reset | .save | .restore _ _ _ => false

/-- The reserved descriptors of rule R61, by the masks of the formats: "those with `CLS` = 110 or 111, and those with a
nonzero `RSV` field in their format". -/
def reservedDescriptor (D : BitVec 16) : Prop :=
  (D &&& 0xC000#16 = 0xC000#16) ∨
  (D &&& 0xC000#16 = 0x0000#16 ∧ D &&& 0x0700#16 ≠ 0#16) ∨
  (D &&& 0xE000#16 = 0x4000#16 ∧ D &&& 0x1F80#16 ≠ 0#16) ∨
  (D &&& 0xE000#16 = 0x6000#16 ∧ D &&& 0x1FFF#16 ≠ 0#16) ∨
  (D &&& 0xE000#16 = 0x8000#16 ∧ D &&& 0x1FFF#16 ≠ 0#16) ∨
  (D &&& 0xE000#16 = 0xA000#16 ∧ D &&& 0x1F00#16 ≠ 0#16)

end Sys2Proof.Machine
end

