-- ==== Sys2Proof/Certificates/Slice0/Obligations.lean ====
section
/-! DEFINITION. The statements for the provers, each from the numbered rules of spec/. A state `s` is any state, reached
or not; where a statement needs the invariant of rule R18 and of construction (R119) it says `s.Inv`. -/

open Sys2Proof Sys2Proof.Machine

/-! ## Construction and the state after reset -/

/-- R121 and R118: after reset both words are 0 and the default pin count is 32. That nothing has been emitted is the
spec's decision D17. The bindings of the reset configuration and its window base are the model's choice (log 2) and
are not stated. -/
def Obligations.ResetStateIsZeroAndSilent : Prop :=
  core.reset = State.reset ∧ State.reset.value = 0#32 ∧ State.reset.direction = 0#32 ∧ State.reset.trace = [] ∧
    State.reset.cfg.pinCount = 32

/-- The reset state meets the invariant that `StepKeepsInvariant` says every step keeps. -/
def Obligations.ResetStateMeetsInvariant : Prop := State.reset.Inv

/-- R118 and R119: construction of a legal configuration gives both words 0 and no event (the spec's decision D17); a
pin count outside 1 to 32 (the lower bound is the spec's decision D20) and a binding at or above the pin count are
refused. -/
def Obligations.ConstructionZeroesOrRefuses : Prop :=
  ∀ c : Config,
    ((1 ≤ c.pinCount ∧ c.pinCount ≤ 32 ∧ ∀ i, c.pinCount ≤ i → c.outBoundAt i = false ∧ c.dirBoundAt i = false) →
      ∃ t, construct c = .next t ∧ t.cfg = c ∧ t.value = 0#32 ∧ t.direction = 0#32 ∧ t.trace = [] ∧ t.Inv) ∧
    (c.pinCount < 1 ∨ 32 < c.pinCount → ∃ r, construct c = .refused r) ∧
    (∀ i, c.pinCount ≤ i → (c.outBoundAt i = true ∨ c.dirBoundAt i = true) → ∃ r, construct c = .refused r)

/-- R124, which the spec derives from R118 and R121: a fresh instance and a reset instance with the same configuration
hold the same words and configuration, and every operation then leaves the same words and emits the same events on
both. -/
def Obligations.FreshAndResetInstancesBehaveAlike : Prop :=
  ∀ (c : Config) (t s u : State) (i : Instr), construct c = .next t → s.cfg = c → exec .reset s = .next u →
    t.cfg = u.cfg ∧ t.value = u.value ∧ t.direction = u.direction ∧
    ∃ t' u' evs, exec i t = .next t' ∧ exec i u = .next u' ∧ t'.value = u'.value ∧ t'.direction = u'.direction ∧
      t'.trace = t.trace ++ evs ∧ u'.trace = u.trace ++ evs

/-! ## Encoding -/

/-- The formats of R53 to R57, which are the spec's own design (D4): encoding a well-formed operation and decoding the
request gives the operation back, for every operand value. -/
def Obligations.DecodeOfEncodeIsTheOperation : Prop := ∀ i : Instr, i.wf = true → decode (encode i) = .ok i

/-- The decoder of R59 against the same formats (D4): every request that decodes is the encoding of the operation it
decodes to, which is well-formed: each request has one meaning. -/
def Obligations.EncodeOfDecodeIsTheRequest : Prop :=
  ∀ (r : Request) (i : Instr), decode r = .ok i → i.wf = true ∧ encode i = r

/-- R66, which the spec derives from R53 to R59: the nine encoding examples: the request in the spec's notation, its
descriptor and operands, and what it decodes to; the pin that is out of range is rejected at execution, and the
diagnostic it raises is the spec's decision D13 (log 13). -/
def Obligations.EncodingExamplesDecode : Prop :=
  (Asm.wrReg .DIR 0x00000001#32).request = ⟨0x3008#16, [0x00000001#32]⟩ ∧
  decode ⟨0x3008#16, [0x00000001#32]⟩ = .ok (.wrDir 0x00000001#32) ∧
  (Asm.rd .b1 0x04#8).request = ⟨0x0004#16, []⟩ ∧ decode ⟨0x0004#16, []⟩ = .ok (.rdBad 0x04#8 .b1) ∧
  (Asm.rd .b4 0x0C#8).request = ⟨0x100C#16, []⟩ ∧ decode ⟨0x100C#16, []⟩ = .ok (.rdBad 0x0C#8 .b4) ∧
  (Asm.wr .b4 0x06#8 5#32).request = ⟨0x3006#16, [5#32]⟩ ∧
  decode ⟨0x3006#16, [5#32]⟩ = .ok (.wrBad 0x06#8 .b4 5#32) ∧
  (Asm.stim 1#6 true).request = ⟨0x4041#16, []⟩ ∧ decode ⟨0x4041#16, []⟩ = .ok (.stim 1 true) ∧
  (Asm.stim 40#6 false).request = ⟨0x4028#16, []⟩ ∧ decode ⟨0x4028#16, []⟩ = .ok (.stim 40 false) ∧
  (Asm.restore 1#8 3#32 1#32).request = ⟨0xA001#16, [3#32, 1#32]⟩ ∧
  decode ⟨0xA001#16, [3#32, 1#32]⟩ = .ok (.restore 1#8 3#32 1#32) ∧
  (∀ s : State, s.cfg.pinCount ≤ 32 →
    exec (.stim 40 false) s = .next { s with trace := s.trace ++ [.diag .stimPinRange] }) ∧
  (∀ ws, decode ⟨0x1100#16, ws⟩ = .error .reservedBits) ∧ (∀ ws, decode ⟨0xC000#16, ws⟩ = .error .reservedClass)

/-- The map of R60 (the spec's own encoding, D4): a request that decodes is the operation whose match and mask its
descriptor meets, the two invalid accesses taking what no specific row of their class takes. -/
def Obligations.DescriptorMatchesItsTableRow : Prop :=
  ∀ (r : Request) (i : Instr), decode r = .ok i →
    (i = .rdIn ↔ r.desc &&& 0xFFFF#16 = 0x1000#16) ∧
    (i = .rdOut ↔ r.desc &&& 0xFFFF#16 = 0x1004#16) ∧
    (i = .rdDir ↔ r.desc &&& 0xFFFF#16 = 0x1008#16) ∧
    ((∃ off sz, i = .rdBad off sz) ↔ r.desc &&& 0xE700#16 = 0x0000#16 ∧ r.desc ≠ 0x1000#16 ∧ r.desc ≠ 0x1004#16 ∧
      r.desc ≠ 0x1008#16) ∧
    ((∃ w, i = .wrIn w) ↔ r.desc &&& 0xFFFF#16 = 0x3000#16) ∧
    ((∃ w, i = .wrOut w) ↔ r.desc &&& 0xFFFF#16 = 0x3004#16) ∧
    ((∃ w, i = .wrDir w) ↔ r.desc &&& 0xFFFF#16 = 0x3008#16) ∧
    ((∃ off sz w, i = .wrBad off sz w) ↔ r.desc &&& 0xE700#16 = 0x2000#16 ∧ r.desc ≠ 0x3000#16 ∧
      r.desc ≠ 0x3004#16 ∧ r.desc ≠ 0x3008#16) ∧
    ((∃ pin lvl, i = .stim pin lvl) ↔ r.desc &&& 0xFF80#16 = 0x4000#16) ∧
    (i = .reset ↔ r.desc &&& 0xFFFF#16 = 0x6000#16) ∧
    (i = .save ↔ r.desc &&& 0xFFFF#16 = 0x8000#16) ∧
    ((∃ ver v d, i = .restore ver v d) ↔ r.desc &&& 0xFF00#16 = 0xA000#16)

/-- The spec's decision D5 (R61): a reserved descriptor is refused whatever its operands are, and has no step; a
descriptor that is not reserved names an operation as soon as its operand words are those of its class (R63). -/
def Obligations.ReservedDescriptorsAndOnlyTheyAreRefused : Prop :=
  ∀ (D : BitVec 16) (ws : List Word),
    (reservedDescriptor D → ∃ e, decode ⟨D, ws⟩ = .error e ∧
      ∀ s rest, s.pending = .request ⟨D, ws⟩ :: rest → step s = .refused (.undecodable e)) ∧
    (¬ reservedDescriptor D → ws.length = operandCount (fieldCls D) → ∃ i, decode ⟨D, ws⟩ = .ok i)

/-- The lengths of R63 (D4): a request that decodes is 48 bits for a bus write, 80 for a restore and 16 for every other
operation, and the length follows from the class alone. -/
def Obligations.RequestLengthFollowsFromTheClass : Prop :=
  ∀ (r : Request) (i : Instr), decode r = .ok i →
    r.bitLength = 16 + 32 * operandCount (fieldCls r.desc) ∧
    r.bitLength = (match i with
      | .wrIn _ | .wrOut _ | .wrDir _ | .wrBad _ _ _ => 48
      | .restore _ _ _ => 80
      | .rdIn | .rdOut | .rdDir | .rdBad _ _ | .stim _ _ | .reset | .save => 16)

/-- R32, R36 and R37: a format-B request selects a register exactly when the access is 4 bytes wide, aligned, and at
offset 0x000, 0x004 or 0x008; every other width, alignment or offset is an invalid access. -/
def Obligations.OnlyAlignedWordAccessesSelectRegisters : Prop :=
  ∀ (off : BitVec 8) (sz : Width) (w : Word),
    (decode ⟨formatB 0b000#3 sz off, []⟩ = .ok (.rdBad off sz) ↔
      ¬ (accessOk off sz = true ∧ (off = 0x00#8 ∨ off = 0x04#8 ∨ off = 0x08#8))) ∧
    (decode ⟨formatB 0b001#3 sz off, [w]⟩ = .ok (.wrBad off sz w) ↔
      ¬ (accessOk off sz = true ∧ (off = 0x00#8 ∨ off = 0x04#8 ∨ off = 0x08#8)))

/-- The notation of R64 (the spec's own, D6): each line of the spec's notation is a request that decodes to the
operation it names. -/
def Obligations.NotationNamesItsOperation : Prop :=
  decode (Asm.rdReg .IN).request = .ok .rdIn ∧ decode (Asm.rdReg .OUT).request = .ok .rdOut ∧
  decode (Asm.rdReg .DIR).request = .ok .rdDir ∧
  (∀ w, decode (Asm.wrReg .IN w).request = .ok (.wrIn w)) ∧
  (∀ w, decode (Asm.wrReg .OUT w).request = .ok (.wrOut w)) ∧
  (∀ w, decode (Asm.wrReg .DIR w).request = .ok (.wrDir w)) ∧
  (∀ r : RegName, (Asm.rdReg r).request = (Asm.rd .b4 r.offset).request) ∧
  (∀ (r : RegName) (w : Word), (Asm.wrReg r w).request = (Asm.wr .b4 r.offset w).request) ∧
  (∀ sz off, decode (Asm.rd sz off).request = .ok (readAt off sz)) ∧
  (∀ sz off w, decode (Asm.wr sz off w).request = .ok (writeAt off sz w)) ∧
  (∀ pin lvl, decode (Asm.stim pin lvl).request = .ok (.stim pin.toNat lvl)) ∧
  decode Asm.reset.request = .ok .reset ∧ decode Asm.save.request = .ok .save ∧
  (∀ ver v d, decode (Asm.restore ver v d).request = .ok (.restore ver v d))

/-- R65 (D6): each pseudo-instruction is one request of the operation its row names, and `nop` has no effect and raises
no diagnostic. -/
def Obligations.PseudoInstructionsExpand : Prop :=
  (∀ w, decode (Pseudo.drive w).expand.request = .ok (.wrOut w)) ∧
  (∀ w, decode (Pseudo.setdir w).expand.request = .ok (.wrDir w)) ∧
  decode Pseudo.allin.expand.request = .ok (.wrDir 0#32) ∧
  decode Pseudo.rdval.expand.request = .ok .rdIn ∧
  decode Pseudo.nop.expand.request = .ok (.wrIn 0#32) ∧
  (∀ s : State, exec (.wrIn 0#32) s = .next s) ∧
  (∀ s : State, ∃ t, exec (.wrDir 0#32) s = .next t ∧ t.direction = 0#32)

/-! ## The step -/

/-- R10 and R42, over the model's own input side: that delivered requests wait in a list and a step takes the oldest of
them is the model's choice (log 4), since the block has no queue. When that request decodes to an operation, the
step is that operation in the state in which the request is no longer waiting. -/
def Obligations.StepRunsTheOldestRequest : Prop :=
  ∀ (s : State) (r : Request) (rest : List Delivery) (i : Instr), s.pending = .request r :: rest → decode r = .ok i →
    step s = exec i { s with pending := rest }

/-- The model's own input side (log 4): `withFetchWord` puts a request where the very next step takes it. -/
def Obligations.PlacedRequestRunsNext : Prop :=
  ∀ (s : State) (nbits w : Nat) (i : Instr), decodeTableWord nbits w = some i →
    step (s.withFetchWord nbits w) = exec i s

/-- The spec's decisions D16 and D24 and rule R44 (log 7): overlapping and re-entrant requests and instruction fetches
have no step. -/
def Obligations.UnserializedItemsHaveNoStep : Prop :=
  ∀ (s : State) (rest : List Delivery) (r : Request) (off : BitVec 8),
    (s.pending = .overlapping r :: rest → step s = .refused .overlappingRequest) ∧
    (s.pending = .reentrant r :: rest → step s = .refused .reentrantRequest) ∧
    (s.pending = .instructionFetch off :: rest → step s = .refused .instructionFetch)

/-- The model's choice of log 5: with nothing delivered the block waits, and its state persists (R116). -/
def Obligations.BlockWaitsWithNothingDelivered : Prop := ∀ s : State, s.pending = [] → step s = .next s

/-- R93: every operation finishes, in every state, with at most `PIN_COUNT` notifications (at most 32), at most one data
event and at most one diagnostic; it leaves the configuration and the requests still waiting as they were. -/
def Obligations.EveryOperationFinishesWithinBounds : Prop :=
  ∀ (i : Instr) (s : State), ∃ t evs, exec i s = .next t ∧ t.cfg = s.cfg ∧ t.pending = s.pending ∧
    t.trace = s.trace ++ evs ∧ (evs.filterMap Event.notifiedPin).length ≤ s.cfg.pinCount ∧
    (evs.filterMap Event.notifiedPin).length ≤ 32 ∧ (evs.filter Event.isData).length ≤ 1 ∧
    (evs.filter Event.isDiag).length ≤ 1

/-- R18: the invariant, a legal configuration and no bit of either word at or above `PIN_COUNT`, holds of every new
instance, and every step keeps it, so it holds in every state the block reaches. -/
def Obligations.StepKeepsInvariant : Prop :=
  (∀ (c : Config) (t : State), construct c = .next t → t.Inv) ∧
  (∀ s t : State, s.Inv → step s = .next t → t.Inv)

/-- R19: the configuration is immutable after construction. -/
def Obligations.StepKeepsConfiguration : Prop := ∀ s t : State, step s = .next t → t.cfg = s.cfg

/-- R28: the block never reads what it has emitted, nor the requests still waiting: with another trace and other waiting
requests an operation leaves the same words and emits the same events. -/
def Obligations.OperationsIgnoreTraceAndWaitingRequests : Prop :=
  ∀ (i : Instr) (s t : State), exec i s = .next t → ∃ evs, t.trace = s.trace ++ evs ∧
    ∀ (tr : List Event) (p : List Delivery),
      exec i { s with trace := tr, pending := p } = .next { t with trace := tr ++ evs, pending := p }

/-- R42: a run of the machine over the requests of a list of operations is those operations one after the other, each in
the state the one before it left. That the requests wait in a list is the model's choice (log 4). -/
def Obligations.SerializedRunIsTheOperationsInOrder : Prop :=
  ∀ (ops : List Instr) (s : State), (∀ i ∈ ops, i.wf = true) →
    s.pending = ops.map (fun i => .request (encode i)) →
    core.run ops.length s = runAll ops { s with pending := [] }

/-- R49: a step of one instance changes no other instance, and is that instance's own step. -/
def Obligations.InstancesAreIndependent : Prop :=
  ∀ (k : Nat) (sys sys' : List State), stepInstance k sys = .next sys' →
    sys'.length = sys.length ∧ (∀ j, j ≠ k → sys'[j]? = sys[j]?) ∧
    (∀ s, sys[k]? = some s → ∃ t, step s = .next t ∧ sys'[k]? = some t)

/-! ## Bus reads -/

/-- R67 and R26: `RD_IN` emits `value` and changes no state; its result equals that of `RD_OUT`, and its bits at or
above `PIN_COUNT` are 0. -/
def Obligations.ReadOfInReturnsValue : Prop :=
  decode ⟨0x1000#16, []⟩ = .ok .rdIn ∧
  ∀ s : State, exec .rdIn s = .next { s with trace := s.trace ++ [.readData s.value] } ∧ exec .rdIn s = exec .rdOut s ∧
    (s.Inv → ∀ k, s.cfg.pinCount ≤ k → s.value.getLsbD k = false)

/-- R68: `RD_OUT` returns `value`, not the word last written: after an `OUT` write the bits of input pins are those of
`value`. -/
def Obligations.ReadOfOutReturnsValueNotTheWrittenWord : Prop :=
  decode ⟨0x1004#16, []⟩ = .ok .rdOut ∧
  (∀ s : State, exec .rdOut s = .next { s with trace := s.trace ++ [.readData s.value] }) ∧
  (∀ s : State, s.Inv → ∀ k, s.cfg.pinCount ≤ k → s.value.getLsbD k = false) ∧
  (∀ (s : State) (w : Word), ∃ t x, runAll [.wrOut w, .rdOut] s = .next t ∧ t.trace.getLast? = some (.readData x) ∧
    ∀ k, x.getLsbD k = if s.direction.getLsbD k then w.getLsbD k else s.value.getLsbD k)

/-- R69: `RD_DIR` returns `direction`, whose bits at or above `PIN_COUNT` are 0, even if a `DIR` write put ones there. -/
def Obligations.ReadOfDirReturnsDirection : Prop :=
  decode ⟨0x1008#16, []⟩ = .ok .rdDir ∧
  (∀ s : State, exec .rdDir s = .next { s with trace := s.trace ++ [.readData s.direction] }) ∧
  (∀ s : State, s.Inv → ∀ k, s.cfg.pinCount ≤ k → s.direction.getLsbD k = false) ∧
  (∀ (s : State) (w : Word), s.cfg.pinCount ≤ 32 → ∃ t x, runAll [.wrDir w, .rdDir] s = .next t ∧
    t.trace.getLast? = some (.readData x) ∧ ∀ k, x.getLsbD k = (w.getLsbD k && decide (k < s.cfg.pinCount)))

/-- R70, on every offset and width: one diagnostic, by width, then alignment, then offset (the codes and their order are
the spec's decision D12); then the word 0, which is zero in every byte of the access (D11); no other change. -/
def Obligations.InvalidReadReportsAndReturnsZero : Prop :=
  ∀ (off : BitVec 8) (sz : Width) (s : State),
    (selectsRegister off sz = false → decode ⟨formatB 0b000#3 sz off, []⟩ = .ok (.rdBad off sz)) ∧
    exec (.rdBad off sz) s = .next { s with trace := s.trace ++
      [.diag (if sz ≠ .b4 then .rdBadSize
        else if off.getLsbD 0 = true ∨ off.getLsbD 1 = true then .rdMisaligned else .rdBadOffset), .readData 0#32] } ∧
    replyBytes sz.bytes 0#32 = List.replicate sz.bytes 0#8

/-- R71, which the spec derives from R67 to R70: a sequence of reads leaves the words as they were, and returns for each
read what it returns in the first state, with its own diagnostic. -/
def Obligations.ReadsRepeat : Prop :=
  ∀ (ops : List Instr) (s : State), (∀ i ∈ ops, isRead i = true) → ∃ t, runAll ops s = .next t ∧
    t.value = s.value ∧ t.direction = s.direction ∧ t.cfg = s.cfg ∧ ∃ evs : List (List Event),
      t.trace = s.trace ++ evs.flatten ∧
      List.Forall₂ (fun i es => ∃ u, exec i s = .next u ∧ u.trace = s.trace ++ es) ops evs

/-- R72, which the spec derives from R67 to R69 and R18: a valid read returns a word with every bit at or above
`PIN_COUNT` clear; with one pin only bit 0 can be 1. -/
def Obligations.ValidReadsShowNoUnusedPin : Prop :=
  ∀ (s : State) (i : Instr), s.Inv → i = .rdIn ∨ i = .rdOut ∨ i = .rdDir →
    ∃ t w, exec i s = .next t ∧ t.trace = s.trace ++ [.readData w] ∧
      (∀ k, s.cfg.pinCount ≤ k → w.getLsbD k = false) ∧ (s.cfg.pinCount = 1 → w = 0#32 ∨ w = 1#32)

/-! ## Bus writes -/

/-- R74: a write to `IN` is a no-op, whatever the word: no state change, no notification; the absence of a diagnostic is
the spec's decision D10 (log 11). -/
def Obligations.WriteToInDoesNothing : Prop :=
  (∀ w, decode ⟨0x3000#16, [w]⟩ = .ok (.wrIn w)) ∧ ∀ (w : Word) (s : State), exec (.wrIn w) s = .next s

/-- R75, pin by pin: an `OUT` write sets the bits of output pins from the word; every other bit of `value`, `direction`
and the configuration stay; the edge detector's notifications are all it emits. Bits of the word at or above
`PIN_COUNT` have no effect; with `direction` 0, or the word `value` already holds, nothing changes and nothing is
emitted. -/
def Obligations.OutWriteSetsOutputPinsOnly : Prop :=
  (∀ w, decode ⟨0x3004#16, [w]⟩ = .ok (.wrOut w)) ∧
  ∀ (w : Word) (s : State), ∃ t, exec (.wrOut w) s = .next t ∧
    t.value = (s.value &&& ~~~s.direction) ||| (w &&& s.direction) ∧
    (∀ i, t.value.getLsbD i = if s.direction.getLsbD i then w.getLsbD i else s.value.getLsbD i) ∧
    t.direction = s.direction ∧ t.cfg = s.cfg ∧ t.pending = s.pending ∧
    t.trace = s.trace ++ edgeOut s.cfg s.value t.value s.direction ∧
    (s.Inv → exec (.wrOut (w &&& pinMask s.cfg)) s = .next t) ∧
    (s.direction = 0#32 ∨ w = s.value → t = s)

/-- R76, pin by pin: a `DIR` write replaces `direction` by the word without its bits at or above `PIN_COUNT` (C1, D9),
so verbatim with 32 pins; `value` keeps every bit (D28), or with DIR_TO_INPUT_CLEARS (I1) loses the bits of pins
that become inputs; it emits the edge detector's direction notifications only, and none for the word `direction`
already holds. -/
def Obligations.DirWriteReplacesDirection : Prop :=
  (∀ w, decode ⟨0x3008#16, [w]⟩ = .ok (.wrDir w)) ∧
  ∀ (w : Word) (s : State), s.cfg.pinCount ≤ 32 → ∃ t, exec (.wrDir w) s = .next t ∧
    (∀ i, t.direction.getLsbD i = (w.getLsbD i && decide (i < s.cfg.pinCount))) ∧
    (s.cfg.pinCount = 32 → t.direction = w) ∧
    (s.cfg.dirToInputClears = false → t.value = s.value) ∧
    (s.cfg.dirToInputClears = true → ∀ i, t.value.getLsbD i =
      (s.value.getLsbD i && !(s.direction.getLsbD i && !t.direction.getLsbD i))) ∧
    t.cfg = s.cfg ∧ t.pending = s.pending ∧ t.trace = s.trace ++ edgeDir s.cfg s.direction t.direction ∧
    (∀ e ∈ edgeDir s.cfg s.direction t.direction, e.isDirNotify = true) ∧
    (w &&& pinMask s.cfg = s.direction → t = s)

/-- R77, on every offset and width: one diagnostic (codes and order: the spec's decision D12) and nothing else; the word
is discarded. -/
def Obligations.InvalidWriteReportsAndIsDropped : Prop :=
  ∀ (off : BitVec 8) (sz : Width) (w : Word) (s : State),
    (selectsRegister off sz = false → decode ⟨formatB 0b001#3 sz off, [w]⟩ = .ok (.wrBad off sz w)) ∧
    exec (.wrBad off sz w) s = .next { s with trace := s.trace ++
      [.diag (if sz ≠ .b4 then .wrBadSize
        else if off.getLsbD 0 = true ∨ off.getLsbD 1 = true then .wrMisaligned else .wrBadOffset)] }

/-- R79, which the spec derives from R75 and R76: the laws of the write rules. The second half of the first law holds
where the configuration takes the reading of rule R76 (DIR_TO_INPUT_CLEARS false); the last law needs the clear high
bits of R18. -/
def Obligations.WriteLaws : Prop :=
  ∀ (w : Word) (s : State), ∃ t u, exec (.wrOut w) s = .next t ∧ exec (.wrDir w) s = .next u ∧
    t.direction = s.direction ∧ (s.cfg.dirToInputClears = false → u.value = s.value) ∧
    t.value &&& s.direction = w &&& s.direction ∧ t.value &&& ~~~s.direction = s.value &&& ~~~s.direction ∧
    u.direction = w &&& pinMask s.cfg ∧
    (w = s.value → t = s) ∧ (w = s.direction → s.Inv → u = s)

/-- R80 to R84 (R84 is derived by the spec; that an unbound pin gets none is its decision D14): an `OUT` write notifies
exactly the bound output pins whose value bit changed, with the new level, a `DIR` write exactly the bound pins
whose direction bit changed, with the new bit; each pin once, in ascending order. -/
def Obligations.WritesNotifyExactlyTheChangedPins : Prop :=
  (∀ (w : Word) (s : State), ∃ t evs, exec (.wrOut w) s = .next t ∧ t.trace = s.trace ++ evs ∧
    (∀ e, e ∈ evs ↔ ∃ i, i < s.cfg.pinCount ∧ s.direction.getLsbD i = true ∧
      s.value.getLsbD i ≠ t.value.getLsbD i ∧ s.cfg.outBoundAt i = true ∧ e = .outNotify i (t.value.getLsbD i)) ∧
    (evs.filterMap Event.notifiedPin).Pairwise (· < ·) ∧ evs.length = (evs.filterMap Event.notifiedPin).length) ∧
  (∀ (w : Word) (s : State), ∃ t evs, exec (.wrDir w) s = .next t ∧ t.trace = s.trace ++ evs ∧
    (∀ e, e ∈ evs ↔ ∃ i, i < s.cfg.pinCount ∧ s.direction.getLsbD i ≠ t.direction.getLsbD i ∧
      s.cfg.dirBoundAt i = true ∧ e = .dirNotify i (t.direction.getLsbD i)) ∧
    (evs.filterMap Event.notifiedPin).Pairwise (· < ·) ∧ evs.length = (evs.filterMap Event.notifiedPin).length)

/-- R39, which the spec derives from R67 to R70, R75 and R80: repeating an `OUT` or a `DIR` write leaves the state as it
was after the first write and emits nothing. -/
def Obligations.RepeatedWriteChangesAndEmitsNothing : Prop :=
  ∀ (w : Word) (s : State), ∃ t u, exec (.wrOut w) s = .next t ∧ exec (.wrOut w) t = .next t ∧
    exec (.wrDir w) s = .next u ∧ exec (.wrDir w) u = .next u

/-- R36, and the spec's decision D12 (R106), over whole accesses: the checks run in the order width, alignment, offset,
the first that fails gives the one diagnostic, and an access that fails none raises none. -/
def Obligations.BusChecksRunInOrder : Prop :=
  ∀ (off : BitVec 8) (sz : Width) (w : Word) (s : State), ∃ t u evs fs,
    exec (readAt off sz) s = .next t ∧ t.trace = s.trace ++ evs ∧
    exec (writeAt off sz w) s = .next u ∧ u.trace = s.trace ++ fs ∧
    (sz.bytes ≠ 4 → evs = [.diag .rdBadSize, .readData 0#32] ∧ fs = [.diag .wrBadSize]) ∧
    (sz.bytes = 4 → off.toNat % 4 ≠ 0 → evs = [.diag .rdMisaligned, .readData 0#32] ∧ fs = [.diag .wrMisaligned]) ∧
    (sz.bytes = 4 → off.toNat % 4 = 0 → 0x0C ≤ off.toNat →
      evs = [.diag .rdBadOffset, .readData 0#32] ∧ fs = [.diag .wrBadOffset]) ∧
    (sz.bytes = 4 → off.toNat % 4 = 0 → off.toNat < 0x0C → DiagFree evs ∧ DiagFree fs)

/-! ## Who writes what, and which events -/

/-- R27: `value` changes only by an `OUT` write, stimulus, reset or restore (and a `DIR` write where DIR_TO_INPUT_CLEARS
is true, I1); `direction` only by a `DIR` write, reset or restore. That a restore of another version than 1 writes
neither is the spec's decision D18 (log 14). -/
def Obligations.OnlyTheNamedOperationsWriteTheWords : Prop :=
  ∀ (i : Instr) (s t : State), exec i s = .next t →
    (t.value ≠ s.value → (∃ w, i = .wrOut w) ∨ (∃ pin lvl, i = .stim pin lvl ∧ pin < s.cfg.pinCount ∧
      s.direction.getLsbD pin = false) ∨ i = .reset ∨ (∃ v d, i = .restore 1#8 v d) ∨
      (s.cfg.dirToInputClears = true ∧ ∃ w, i = .wrDir w)) ∧
    (t.direction ≠ s.direction → (∃ w, i = .wrDir w) ∨ i = .reset ∨ ∃ v d, i = .restore 1#8 v d)

/-- R92 (for reset and snapshot the spec's decisions D17 and D19): only an `OUT` write emits `OutNotify`, and only a
`DIR` write emits `DirNotify`. -/
def Obligations.EachWriteEmitsOnlyItsOwnNotifications : Prop :=
  ∀ (i : Instr) (s : State), ∃ t evs, exec i s = .next t ∧ t.trace = s.trace ++ evs ∧
    (∀ e ∈ evs, e.isOutNotify = true → ∃ w, i = .wrOut w) ∧
    (∀ e ∈ evs, e.isDirNotify = true → ∃ w, i = .wrDir w)

/-- R102: an operation that raises a diagnostic completes, changes nothing but the trace, and returns 0 where it is a
read; the next operation, whichever it is, is handled as if the error had not happened. -/
def Obligations.DiagnosticsChangeNoWord : Prop :=
  ∀ (i : Instr) (s : State), ∃ t evs, exec i s = .next t ∧ t.trace = s.trace ++ evs ∧
    (¬ DiagFree evs → t = { s with trace := s.trace ++ evs } ∧
      (isRead i = true → Event.readData 0#32 ∈ evs) ∧ (isRead i = false → ∃ c, evs = [.diag c]) ∧
      ∀ j : Instr, ∃ u u' fs, exec j s = .next u ∧ exec j t = .next u' ∧ u'.value = u.value ∧
        u'.direction = u.direction ∧ u.trace = s.trace ++ fs ∧ u'.trace = t.trace ++ fs)

/-- The codes 1 to 8 of R100, which are the spec's decision D12. -/
def Obligations.DiagnosticCodesAreNumbered : Prop :=
  ([.rdBadSize, .rdMisaligned, .rdBadOffset, .wrBadSize, .wrMisaligned, .wrBadOffset, .stimPinRange,
    .restoreBadVersion] : List DiagCode).map DiagCode.number = [1, 2, 3, 4, 5, 6, 7, 8] ∧
  ∀ c d : DiagCode, c.number = d.number → c = d

/-! ## Input stimulus -/

/-- R86: stimulus on an input pin sets that pin's bit of `value` to the level, changes no other bit, and shows at once
in reads of `IN` and `OUT`. -/
def Obligations.StimulusSetsTheInputPin : Prop :=
  ∀ (pin : Nat) (lvl : Bool) (s : State), s.cfg.pinCount ≤ 32 → pin < s.cfg.pinCount →
    s.direction.getLsbD pin = false →
    ∃ t, exec (.stim pin lvl) s = .next t ∧ t.value.getLsbD pin = lvl ∧
      (∀ j, j ≠ pin → t.value.getLsbD j = s.value.getLsbD j) ∧ t.direction = s.direction ∧ t.cfg = s.cfg ∧
      t.trace = s.trace ∧ t.pending = s.pending ∧
      exec .rdIn t = .next { t with trace := t.trace ++ [.readData t.value] } ∧
      exec .rdOut t = .next { t with trace := t.trace ++ [.readData t.value] }

/-- R87: stimulus on an output pin is discarded: no state change, no notification, no diagnostic. -/
def Obligations.StimulusOnAnOutputPinIsDiscarded : Prop :=
  ∀ (pin : Nat) (lvl : Bool) (s : State), pin < s.cfg.pinCount → s.direction.getLsbD pin = true →
    exec (.stim pin lvl) s = .next s

/-- R88: stimulus for a pin at or above `PIN_COUNT` changes no state; the diagnostic is the spec's decision D13. -/
def Obligations.StimulusOutOfRangeIsRejected : Prop :=
  ∀ (pin : Nat) (lvl : Bool) (s : State), s.cfg.pinCount ≤ pin →
    exec (.stim pin lvl) s = .next { s with trace := s.trace ++ [.diag .stimPinRange] }

/-- R89: stimulus never notifies an output line or a direction line, whatever the pin and level. -/
def Obligations.StimulusNotifiesNobody : Prop :=
  ∀ (pin : Nat) (lvl : Bool) (s : State), ∃ t evs, exec (.stim pin lvl) s = .next t ∧ t.trace = s.trace ++ evs ∧
    ∀ e ∈ evs, e.isOutNotify = false ∧ e.isDirNotify = false

/-! ## Reset and snapshot -/

/-- R121: from every state, reset clears both words and leaves the configuration; that it emits nothing is the spec's
decision D17 (R122, log 10). -/
def Obligations.ResetClearsBothWordsSilently : Prop :=
  decode ⟨0x6000#16, []⟩ = .ok .reset ∧
  ∀ s : State, exec .reset s = .next { s with value := 0#32, direction := 0#32 }

/-- R94: save emits `value` and `direction` and changes no state; the version number 1 is the spec's decision D18. -/
def Obligations.SaveExportsBothWords : Prop :=
  decode ⟨0x8000#16, []⟩ = .ok .save ∧
  ∀ s : State, exec .save s = .next { s with trace := s.trace ++ [.snapshotData 1#8 s.value s.direction] }

/-- R96 to R98, the spec's decisions D18 and D19 (log 10, log 14): a restore of version 1 loads both words without their
bits at or above `PIN_COUNT`, on input and output pins alike, silently; another version raises the diagnostic and
changes nothing. -/
def Obligations.RestoreLoadsBothWordsOrRejects : Prop :=
  (∀ ver v d, decode ⟨0xA000#16 ||| ver.setWidth 16, [v, d]⟩ = .ok (.restore ver v d)) ∧
  ∀ (v d : Word) (s : State),
    (s.cfg.pinCount ≤ 32 → ∃ t, exec (.restore 1#8 v d) s = .next t ∧
      (∀ i, t.value.getLsbD i = (v.getLsbD i && decide (i < s.cfg.pinCount))) ∧
      (∀ i, t.direction.getLsbD i = (d.getLsbD i && decide (i < s.cfg.pinCount))) ∧
      t.trace = s.trace ∧ t.cfg = s.cfg ∧ t.pending = s.pending) ∧
    (∀ ver, ver ≠ 1#8 →
      exec (.restore ver v d) s = .next { s with trace := s.trace ++ [.diag .restoreBadVersion] })

/-- R99, which the spec derives from R94, R96 and R97: what a save exports, restored on the same instance in whatever
state it is by then, gives the two words back. -/
def Obligations.SaveThenRestoreGivesTheWordsBack : Prop :=
  ∀ (s s' : State) (v d : Word), s.Inv → exec .save s = .next s' → s'.trace = s.trace ++ [.snapshotData 1#8 v d] →
    ∀ t : State, t.cfg = s.cfg → ∃ u, exec (.restore 1#8 v d) t = .next u ∧ u.value = v ∧ u.direction = d ∧
      v = s.value ∧ d = s.direction

/-! ## Software-visible hazards -/

/-- R130: a read right after a write returns the written result. -/
def Obligations.ReadAfterWriteReturnsTheResult : Prop :=
  ∀ (w : Word) (s : State), ∃ t u, runAll [.wrOut w, .rdOut] s = .next t ∧
    t.trace.getLast? = some (.readData ((s.value &&& ~~~s.direction) ||| (w &&& s.direction))) ∧
    runAll [.wrDir w, .rdDir] s = .next u ∧ u.trace.getLast? = some (.readData (w &&& pinMask s.cfg))

/-- R126, which the spec derives from R75 and R76: an `OUT` write to a pin that is still an input is lost; setting `DIR`
afterwards does not apply it, and the pin then drives what its `value` bit held. With `DIR` first, the write drives
it. -/
def Obligations.OutWriteBeforeDirIsLost : Prop :=
  ∀ (w d : Word) (s : State) (i : Nat), s.cfg.pinCount ≤ 32 → i < s.cfg.pinCount → s.direction.getLsbD i = false →
    d.getLsbD i = true → ∃ t u, runAll [.wrOut w, .wrDir d] s = .next t ∧ t.direction.getLsbD i = true ∧
      t.value.getLsbD i = s.value.getLsbD i ∧
      runAll [.wrDir d, .wrOut w] s = .next u ∧ u.direction.getLsbD i = true ∧ u.value.getLsbD i = w.getLsbD i

/-- R127 (D28): where the configuration takes the reading of rule R76, a pin that a `DIR` write makes an input keeps its
last driven level, and no output consumer is told, until stimulus for the pin, a direction write, a reset or a
restore comes: every other operation, in any number and order, leaves it. -/
def Obligations.DrivenLevelIsRetainedOnAnInput : Prop :=
  ∀ (d : Word) (s : State) (i : Nat) (ops : List Instr), s.cfg.pinCount ≤ 32 → s.cfg.dirToInputClears = false →
    i < s.cfg.pinCount → s.direction.getLsbD i = true → d.getLsbD i = false →
    (∀ o ∈ ops, (∀ w, o ≠ .wrDir w) ∧ o ≠ .reset ∧ (∀ ver v x, o ≠ .restore ver v x) ∧ ∀ lvl, o ≠ .stim i lvl) →
    ∃ t, runAll (.wrDir d :: ops) s = .next t ∧ t.direction.getLsbD i = false ∧
      t.value.getLsbD i = s.value.getLsbD i ∧ lastOutLevel i t.trace = lastOutLevel i s.trace

/-- R128, derived by the spec from R76, R80 and R89: a consumer's level changes by an `OUT` write only, and only if the
pin's `value` bit does. That reset and restore tell consumers nothing rests on the spec's decisions D17 and D19 (log
10). -/
def Obligations.ConsumerLevelFollowsOnlyChanges : Prop :=
  ∀ (i : Instr) (s : State) (pin : Nat), ∃ t, exec i s = .next t ∧
    (lastOutLevel pin t.trace ≠ lastOutLevel pin s.trace →
      (∃ w, i = .wrOut w) ∧ t.value.getLsbD pin ≠ s.value.getLsbD pin ∧
        lastOutLevel pin t.trace = some (t.value.getLsbD pin))

/-- R128, derived by the spec from R76, R80 and R89: writing a bound output pin's bit with the complement of a level and
then with the level makes the consumer hold it, whatever it held before; the second write is what tells it. -/
def Obligations.TwoOutWritesResyncTheConsumer : Prop :=
  ∀ (w w' : Word) (b : Bool) (s : State) (i : Nat), i < s.cfg.pinCount → s.cfg.outBoundAt i = true →
    s.direction.getLsbD i = true → w.getLsbD i = !b → w'.getLsbD i = b →
    ∃ t u evs, exec (.wrOut w) s = .next t ∧ exec (.wrOut w') t = .next u ∧ u.trace = t.trace ++ evs ∧
      .outNotify i b ∈ evs ∧ lastOutLevel i u.trace = some b ∧ u.value.getLsbD i = b

/-- R129, derived by the spec from R87 and R127: stimulus on an output pin is not latched: where the configuration takes
the reading of rule R76, the pin that becomes an input afterwards still shows its last driven level. -/
def Obligations.StimulusOnAnOutputIsNotLatched : Prop :=
  ∀ (lvl : Bool) (d : Word) (s : State) (i : Nat), s.cfg.pinCount ≤ 32 → s.cfg.dirToInputClears = false →
    i < s.cfg.pinCount → s.direction.getLsbD i = true → d.getLsbD i = false →
    ∃ t, runAll [.stim i lvl, .wrDir d, .rdIn] s = .next t ∧ t.direction.getLsbD i = false ∧
      t.trace.getLast? = some (.readData s.value)

/-- R131, derived by the spec from R75 and R76: stimulus that comes between a read of `OUT` and the write back does no
harm, since it and the write commute; of two `DIR` writes the first is lost. -/
def Obligations.ReadModifyWriteHazards : Prop :=
  (∀ (pin : Nat) (lvl : Bool) (w : Word) (s : State), s.cfg.pinCount ≤ 32 → pin < s.cfg.pinCount →
    ∃ t, runAll [.stim pin lvl, .wrOut w] s = .next t ∧ runAll [.wrOut w, .stim pin lvl] s = .next t) ∧
  (∀ (d d' : Word) (s : State), ∃ t, runAll [.wrDir d, .wrDir d'] s = .next t ∧ t.direction = d' &&& pinMask s.cfg)

/-! ## The window and the words -/

/-- R31 (the spec's decision D7): a bus access reaches the block exactly when its address is in the window at
`GPIO_BASE`, as the request of its window offset; an access outside leaves the block as it was. -/
def Obligations.BusAccessesReachTheWindowOnly : Prop :=
  ∀ (s : State) (a : Nat) (sz : Width) (w : Word),
    (∀ off : BitVec 8, a = s.cfg.gpioBase + off.toNat →
      busRead s a sz = { s with pending := s.pending ++ [.request (encode (readAt off sz))] } ∧
      busWrite s a sz w = { s with pending := s.pending ++ [.request (encode (writeAt off sz w))] }) ∧
    (a < s.cfg.gpioBase ∨ s.cfg.gpioBase + 0x100 ≤ a → busRead s a sz = s ∧ busWrite s a sz w = s)

/-- R33 (the spec's reading of little-endian, decision D8): the byte at window offset `off + k` carries bits `[8k+7:8k]`
of the register at `off`; no byte of a register lies at 0x00C or above. -/
def Obligations.ByteLanesAreLittleEndian : Prop :=
  ∀ (s : State) (k : Nat), k < 4 →
    (∃ b0 b1 b2 : Byte, windowByte s (BitVec.ofNat 8 k) = some b0 ∧ windowByte s (BitVec.ofNat 8 (0x04 + k)) = some b1 ∧
      windowByte s (BitVec.ofNat 8 (0x08 + k)) = some b2 ∧
      ∀ j, j < 8 → b0.getLsbD j = s.value.getLsbD (8 * k + j) ∧ b1.getLsbD j = s.value.getLsbD (8 * k + j) ∧
        b2.getLsbD j = s.direction.getLsbD (8 * k + j)) ∧
    (∀ off : BitVec 8, 0x0C ≤ off.toNat → windowByte s off = none)

/-- R6, which the spec derives from R5 and the invariant: `PIN_MASK` has bits 0 to `PIN_COUNT-1` set and every other bit
clear. -/
def Obligations.PinMaskHasTheLowBits : Prop :=
  (∀ (c : Config) (i : Nat), 1 ≤ c.pinCount → c.pinCount ≤ 32 → (pinMask c).getLsbD i = decide (i < c.pinCount)) ∧
  (∀ c : Config, pinMask c = if c.pinCount = 32 then 0xFFFFFFFF#32 else (1#32 <<< c.pinCount) - 1#32) ∧
  (∀ c : Config, c.pinCount = 32 → pinMask c = 0xFFFFFFFF#32) ∧
  (∀ c : Config, c.pinCount = 8 → pinMask c = 0x000000FF#32)
end

