-- ==== Sys2Proof/Laws/State.lean ====
section
/-! SUPPORT. One lemma per field per state update, so that no later proof unfolds a record update. -/

namespace Sys2Proof.Machine

namespace State

@[simp] theorem setValue_cfg (s : State) (v : Word) : (s.setValue v).cfg = s.cfg := rfl
@[simp] theorem setValue_value (s : State) (v : Word) : (s.setValue v).value = v := rfl
@[simp] theorem setValue_direction (s : State) (v : Word) : (s.setValue v).direction = s.direction := rfl
@[simp] theorem setValue_trace (s : State) (v : Word) : (s.setValue v).trace = s.trace := rfl
@[simp] theorem setValue_pending (s : State) (v : Word) : (s.setValue v).pending = s.pending := rfl

@[simp] theorem setDirection_cfg (s : State) (d : Word) : (s.setDirection d).cfg = s.cfg := rfl
@[simp] theorem setDirection_value (s : State) (d : Word) : (s.setDirection d).value = s.value := rfl
@[simp] theorem setDirection_direction (s : State) (d : Word) : (s.setDirection d).direction = d := rfl
@[simp] theorem setDirection_trace (s : State) (d : Word) : (s.setDirection d).trace = s.trace := rfl
@[simp] theorem setDirection_pending (s : State) (d : Word) : (s.setDirection d).pending = s.pending := rfl

@[simp] theorem emit_cfg (s : State) (es : List Event) : (s.emit es).cfg = s.cfg := rfl
@[simp] theorem emit_value (s : State) (es : List Event) : (s.emit es).value = s.value := rfl
@[simp] theorem emit_direction (s : State) (es : List Event) : (s.emit es).direction = s.direction := rfl
@[simp] theorem emit_trace (s : State) (es : List Event) : (s.emit es).trace = s.trace ++ es := rfl
@[simp] theorem emit_pending (s : State) (es : List Event) : (s.emit es).pending = s.pending := rfl

@[simp] theorem raiseDiag_cfg (s : State) (c : DiagCode) : (s.raiseDiag c).cfg = s.cfg := rfl
@[simp] theorem raiseDiag_value (s : State) (c : DiagCode) : (s.raiseDiag c).value = s.value := rfl
@[simp] theorem raiseDiag_direction (s : State) (c : DiagCode) : (s.raiseDiag c).direction = s.direction := rfl
@[simp] theorem raiseDiag_trace (s : State) (c : DiagCode) : (s.raiseDiag c).trace = s.trace ++ [.diag c] := rfl
@[simp] theorem raiseDiag_pending (s : State) (c : DiagCode) : (s.raiseDiag c).pending = s.pending := rfl

@[simp] theorem deliver_cfg (s : State) (d : Delivery) : (s.deliver d).cfg = s.cfg := rfl
@[simp] theorem deliver_value (s : State) (d : Delivery) : (s.deliver d).value = s.value := rfl
@[simp] theorem deliver_direction (s : State) (d : Delivery) : (s.deliver d).direction = s.direction := rfl
@[simp] theorem deliver_trace (s : State) (d : Delivery) : (s.deliver d).trace = s.trace := rfl
@[simp] theorem deliver_pending (s : State) (d : Delivery) : (s.deliver d).pending = s.pending ++ [d] := rfl

/-- Emitting nothing changes nothing. -/
@[simp] theorem emit_nil (s : State) : s.emit [] = s := by simp [emit]

/-- Two emissions are one, in order. -/
theorem emit_emit (s : State) (es fs : List Event) : (s.emit es).emit fs = s.emit (es ++ fs) := by
  simp [emit, List.append_assoc]

/-- A write of the value already there changes nothing. -/
@[simp] theorem setValue_self (s : State) : s.setValue s.value = s := rfl

/-- A write of the direction already there changes nothing. -/
@[simp] theorem setDirection_self (s : State) : s.setDirection s.direction = s := rfl

end State

end Sys2Proof.Machine
end

