-- ==== Sys2Proof/Laws/Bits.lean ====
section
/-! SUPPORT. Bit `i` of every word the operations compute, so that proofs about words become proofs about pins. -/

namespace Sys2Proof.Machine

/-- Bit `i` of `1 << n` (R8). -/
theorem oneShift_getLsbD (n i : Nat) : (1#32 <<< n).getLsbD i = (decide (i < 32) && decide (i = n)) := by
  simp only [BitVec.getLsbD_shiftLeft, BitVec.getLsbD_one]
  by_cases h : i = n
  · simp [h]
  · simp [h]; omega

/-- Bit `i` of `PIN_MASK` is set exactly for the pins (R6). -/
theorem pinMask_getLsbD (c : Config) (i : Nat) (hc : c.pinCount ≤ 32) :
    (pinMask c).getLsbD i = decide (i < c.pinCount) := by
  unfold pinMask
  split
  · next h =>
    rw [h, show (0xFFFFFFFF#32 : Word) = BitVec.allOnes 32 from rfl, BitVec.getLsbD_allOnes]
  · next h =>
    have hlt : c.pinCount < 32 := by omega
    have hpow : 2 ^ c.pinCount < 2 ^ 32 := Nat.pow_lt_pow_right (by decide) hlt
    have hpos : 0 < 2 ^ c.pinCount := Nat.two_pow_pos _
    have hsh : (1#32 <<< c.pinCount) = BitVec.ofNat 32 (2 ^ c.pinCount) := by
      apply BitVec.eq_of_toNat_eq
      simp [BitVec.toNat_shiftLeft, Nat.shiftLeft_eq]
    have hval : (1#32 <<< c.pinCount) - 1#32 = BitVec.ofNat 32 (2 ^ c.pinCount - 1) := by
      rw [hsh]
      apply BitVec.eq_of_toNat_eq
      simp only [BitVec.toNat_sub, BitVec.toNat_ofNat]
      omega
    rw [hval, BitVec.getLsbD_ofNat, Nat.testBit_two_pow_sub_one]
    by_cases hi : i < c.pinCount <;> simp [hi]
    omega

/-- Bit `i` of a word masked by `PIN_MASK`. -/
theorem maskPins_getLsbD (c : Config) (w : Word) (i : Nat) (hc : c.pinCount ≤ 32) :
    (maskPins c w).getLsbD i = (w.getLsbD i && decide (i < c.pinCount)) := by
  rw [maskPins, BitVec.getLsbD_and, pinMask_getLsbD c i hc]

/-- Bit `j` of a word with bit `i` written (R86). -/
theorem setBit_getLsbD (w : Word) (i j : Nat) (b : Bool) (hi : i < 32) :
    (setBit w i b).getLsbD j = if j = i then b else w.getLsbD j := by
  unfold setBit
  cases b
  · simp only [Bool.false_eq_true, if_false, BitVec.getLsbD_and, BitVec.getLsbD_not, oneShift_getLsbD]
    by_cases h : j = i
    · simp [h]
    · by_cases hj : j < 32
      · simp [h, hj]
      · simp [h, BitVec.getLsbD_of_ge w j (by omega)]
  · simp only [if_true, BitVec.getLsbD_or, oneShift_getLsbD]
    by_cases h : j = i
    · simp [h, hi]
    · simp [h]

/-- Bit `i` after an `OUT` write: the written bit on an output pin, the old one elsewhere (R24, R75). -/
theorem maskedWrite_getLsbD (v d w : Word) (i : Nat) :
    (maskedWrite v d w).getLsbD i = if d.getLsbD i then w.getLsbD i else v.getLsbD i := by
  unfold maskedWrite
  simp only [BitVec.getLsbD_or, BitVec.getLsbD_and, BitVec.getLsbD_not]
  by_cases hi : i < 32
  · cases d.getLsbD i <;> simp [hi]
  · simp [BitVec.getLsbD_of_ge v i (by omega), BitVec.getLsbD_of_ge d i (by omega)]

/-- On the output pins an `OUT` write leaves the written word (R79). -/
theorem maskedWrite_and_direction (v d w : Word) : maskedWrite v d w &&& d = w &&& d := by
  apply BitVec.eq_of_getLsbD_eq
  intro i _
  rw [BitVec.getLsbD_and, BitVec.getLsbD_and, maskedWrite_getLsbD]
  cases d.getLsbD i <;> simp

/-- Off the output pins an `OUT` write leaves the old word (R79). -/
theorem maskedWrite_and_not_direction (v d w : Word) : maskedWrite v d w &&& ~~~d = v &&& ~~~d := by
  apply BitVec.eq_of_getLsbD_eq
  intro i _
  rw [BitVec.getLsbD_and, BitVec.getLsbD_and, BitVec.getLsbD_not, maskedWrite_getLsbD]
  cases d.getLsbD i <;> simp

/-- Bit `i` of `value` after a `DIR` write (R76, I1). -/
theorem valueAfterDir_getLsbD (c : Config) (v p n : Word) (i : Nat) :
    (valueAfterDir c v p n).getLsbD i =
      (v.getLsbD i && !(c.dirToInputClears && p.getLsbD i && !n.getLsbD i)) := by
  unfold valueAfterDir
  by_cases hi : i < 32
  · cases c.dirToInputClears <;> simp [hi]
  · cases c.dirToInputClears <;> simp [BitVec.getLsbD_of_ge v i (by omega)]

/-- A word has no bit outside `PIN_MASK` exactly when its bits at or above `PIN_COUNT` are 0 (R18). -/
theorem and_not_pinMask_eq_zero_iff (c : Config) (w : Word) (hc : c.pinCount ≤ 32) :
    w &&& ~~~pinMask c = 0#32 ↔ ∀ i, c.pinCount ≤ i → w.getLsbD i = false := by
  constructor
  · intro h i hi
    by_cases h32 : i < 32
    · have hb := congrArg (fun x => x.getLsbD i) h
      simp only [BitVec.getLsbD_and, BitVec.getLsbD_not, pinMask_getLsbD c i hc, h32] at hb
      simpa [show ¬ i < c.pinCount by omega] using hb
    · exact BitVec.getLsbD_of_ge w i (by omega)
  · intro h
    apply BitVec.eq_of_getLsbD_eq
    intro i _
    rw [BitVec.getLsbD_and, BitVec.getLsbD_not, pinMask_getLsbD c i hc]
    by_cases hi : i < c.pinCount
    · simp [hi]
    · simp [h i (by omega)]

/-- The pin count of a configuration that construction accepts (R119). -/
theorem pinCount_le_of_configOk {c : Config} (h : configOk c = true) : 1 ≤ c.pinCount ∧ c.pinCount ≤ 32 := by
  simp only [configOk, pinCountOk, Bool.and_eq_true, decide_eq_true_eq] at h
  exact h.1

/-- The invariant, pin by pin. -/
theorem State.inv_iff (s : State) :
    s.Inv ↔ configOk s.cfg = true ∧ (∀ i, s.cfg.pinCount ≤ i → s.value.getLsbD i = false) ∧
      (∀ i, s.cfg.pinCount ≤ i → s.direction.getLsbD i = false) := by
  unfold State.Inv State.HighBitsClear
  constructor
  · rintro ⟨hc, hv, hd⟩
    have hle := (pinCount_le_of_configOk hc).2
    exact ⟨hc, (and_not_pinMask_eq_zero_iff s.cfg s.value hle).mp hv,
      (and_not_pinMask_eq_zero_iff s.cfg s.direction hle).mp hd⟩
  · rintro ⟨hc, hv, hd⟩
    have hle := (pinCount_le_of_configOk hc).2
    exact ⟨hc, (and_not_pinMask_eq_zero_iff s.cfg s.value hle).mpr hv,
      (and_not_pinMask_eq_zero_iff s.cfg s.direction hle).mpr hd⟩

/-- Masking a word that has no bit at or above `PIN_COUNT` keeps it. -/
theorem maskPins_eq_self {c : Config} {w : Word} (hc : c.pinCount ≤ 32)
    (h : ∀ i, c.pinCount ≤ i → w.getLsbD i = false) : maskPins c w = w := by
  apply BitVec.eq_of_getLsbD_eq
  intro i _
  rw [maskPins_getLsbD c w i hc]
  by_cases hi : i < c.pinCount
  · simp [hi]
  · simp [h i (by omega)]

end Sys2Proof.Machine
end

