-- ==== Sys2Proof/Laws/Decode.lean ====
section
/-! SUPPORT. Every field of every format, read back from the format; the operand lists; and the lookup of a register. -/

namespace Sys2Proof

/-! ## The fields of the formats (R53, R55, R56, R57) -/

/-- `CLS` of a format-B descriptor is the class it was made with (R53). -/
theorem formatB_cls (c : BitVec 3) (sz : Width) (off : BitVec 8) : fieldCls (formatB c sz off) = c := by
  apply BitVec.eq_of_getLsbD_eq
  intro i hi
  simp only [fieldCls, formatB, BitVec.getLsbD_extractLsb', BitVec.getLsbD_append]
  simp [hi, show ¬ 13 + i < 8 by omega, show ¬ 13 + i - 8 < 3 by omega, show ¬ 13 + i - 8 - 3 < 2 by omega,
    show 13 + i - 8 - 3 - 2 = i by omega]

theorem formatB_sz (c : BitVec 3) (sz : Width) (off : BitVec 8) :
    fieldSz (formatB c sz off) = codeOfWidth sz := by
  apply BitVec.eq_of_getLsbD_eq
  intro i hi
  simp only [fieldSz, formatB, BitVec.getLsbD_extractLsb', BitVec.getLsbD_append]
  simp [hi, show ¬ 11 + i < 8 by omega, show ¬ 11 + i - 8 < 3 by omega, show 11 + i - 8 - 3 = i by omega]

theorem formatB_reserved (c : BitVec 3) (sz : Width) (off : BitVec 8) : reservedB (formatB c sz off) = 0#3 := by
  apply BitVec.eq_of_getLsbD_eq
  intro i hi
  simp only [reservedB, formatB, BitVec.getLsbD_extractLsb', BitVec.getLsbD_append]
  simp [show ¬ 8 + i < 8 by omega, hi]

theorem formatB_off (c : BitVec 3) (sz : Width) (off : BitVec 8) : fieldOff (formatB c sz off) = off := by
  apply BitVec.eq_of_getLsbD_eq
  intro i hi
  simp only [fieldOff, formatB, BitVec.getLsbD_extractLsb', BitVec.getLsbD_append]
  simp [hi]

theorem formatS_cls (l : Bool) (p : BitVec 6) : fieldCls (formatS l p) = 0b010#3 := by
  apply BitVec.eq_of_getLsbD_eq
  intro i hi
  simp only [fieldCls, formatS, BitVec.getLsbD_extractLsb', BitVec.getLsbD_append]
  simp [hi, show ¬ 13 + i < 6 by omega, show ¬ 13 + i - 6 < 1 by omega, show ¬ 13 + i - 6 - 1 < 6 by omega,
    show 13 + i - 6 - 1 - 6 = i by omega]

theorem formatS_reserved (l : Bool) (p : BitVec 6) : reservedS (formatS l p) = 0#6 := by
  apply BitVec.eq_of_getLsbD_eq
  intro i hi
  simp only [reservedS, formatS, BitVec.getLsbD_extractLsb', BitVec.getLsbD_append]
  simp [show ¬ 7 + i < 6 by omega, show ¬ 7 + i - 6 < 1 by omega, show 7 + i - 6 - 1 < 6 by omega]

theorem formatS_lvl (l : Bool) (p : BitVec 6) : fieldLvl (formatS l p) = l := by
  simp only [fieldLvl, formatS, BitVec.getLsbD_append]
  simp

theorem formatS_pin (l : Bool) (p : BitVec 6) : fieldPin (formatS l p) = p := by
  apply BitVec.eq_of_getLsbD_eq
  intro i hi
  simp only [fieldPin, formatS, BitVec.getLsbD_extractLsb', BitVec.getLsbD_append]
  simp [hi]

theorem formatR_cls (v : BitVec 8) : fieldCls (formatR v) = 0b101#3 := by
  apply BitVec.eq_of_getLsbD_eq
  intro i hi
  simp only [fieldCls, formatR, BitVec.getLsbD_extractLsb', BitVec.getLsbD_append]
  simp [hi, show ¬ 13 + i < 8 by omega, show ¬ 13 + i - 8 < 5 by omega, show 13 + i - 8 - 5 = i by omega]

theorem formatR_reserved (v : BitVec 8) : reservedR (formatR v) = 0#5 := by
  apply BitVec.eq_of_getLsbD_eq
  intro i hi
  simp only [reservedR, formatR, BitVec.getLsbD_extractLsb', BitVec.getLsbD_append]
  simp [show ¬ 8 + i < 8 by omega, hi]

theorem formatR_ver (v : BitVec 8) : fieldVer (formatR v) = v := by
  apply BitVec.eq_of_getLsbD_eq
  intro i hi
  simp only [fieldVer, formatR, BitVec.getLsbD_extractLsb', BitVec.getLsbD_append]
  simp [hi]

/-- The width codes are read back (R54). -/
@[simp] theorem widthOfCode_codeOfWidth (sz : Width) : widthOfCode (codeOfWidth sz) = sz := by cases sz <;> rfl

@[simp] theorem codeOfWidth_widthOfCode (c : BitVec 2) : codeOfWidth (widthOfCode c) = c := by
  revert c; decide

/-! ## Operand lists (R63) -/

theorem withoutOperands_ok (i j : Instr) (ws : List Word) : withoutOperands i ws = .ok j ↔ ws = [] ∧ j = i := by
  cases ws <;> simp [withoutOperands, eq_comm]

theorem withOneOperand_ok (f : Word → Instr) (j : Instr) (ws : List Word) :
    withOneOperand f ws = .ok j ↔ ∃ w, ws = [w] ∧ j = f w := by
  match ws with
  | [] => simp [withOneOperand]
  | [w] => simp [withOneOperand, eq_comm]
  | _ :: _ :: _ => simp [withOneOperand]

theorem withTwoOperands_ok (f : Word → Word → Instr) (j : Instr) (ws : List Word) :
    withTwoOperands f ws = .ok j ↔ ∃ v d, ws = [v, d] ∧ j = f v d := by
  match ws with
  | [] => simp [withTwoOperands]
  | [_] => simp [withTwoOperands]
  | [v, d] => simp [withTwoOperands, eq_comm]
  | _ :: _ :: _ :: _ => simp [withTwoOperands]

/-! ## The row an offset and a width select (R32, R59) -/

/-- An access that selects no register reads as `RD_BAD`. -/
theorem readAt_of_not_selects {off : BitVec 8} {sz : Width} (h : selectsRegister off sz = false) :
    readAt off sz = .rdBad off sz := by
  unfold selectsRegister at h
  unfold readAt
  cases sz <;> simp_all

/-- An access that selects no register writes as `WR_BAD`. -/
theorem writeAt_of_not_selects {off : BitVec 8} {sz : Width} (w : Word) (h : selectsRegister off sz = false) :
    writeAt off sz w = .wrBad off sz w := by
  unfold selectsRegister at h
  unfold writeAt
  cases sz <;> simp_all

/-- What a decoded B-format read can be. -/
theorem readAt_cases (off : BitVec 8) (sz : Width) :
    (sz = .b4 ∧ off = 0x00#8 ∧ readAt off sz = .rdIn) ∨ (sz = .b4 ∧ off = 0x04#8 ∧ readAt off sz = .rdOut) ∨
      (sz = .b4 ∧ off = 0x08#8 ∧ readAt off sz = .rdDir) ∨
      (selectsRegister off sz = false ∧ readAt off sz = .rdBad off sz) := by
  unfold readAt
  split
  · next h => exact .inl ⟨h.1, h.2, rfl⟩
  split
  · next h => exact .inr (.inl ⟨h.1, h.2, rfl⟩)
  split
  · next h => exact .inr (.inr (.inl ⟨h.1, h.2, rfl⟩))
  · next h0 h4 h8 =>
    refine .inr (.inr (.inr ⟨?_, rfl⟩))
    unfold selectsRegister
    cases sz <;> simp_all

/-- What a decoded B-format write can be. -/
theorem writeAt_cases (off : BitVec 8) (sz : Width) (w : Word) :
    (sz = .b4 ∧ off = 0x00#8 ∧ writeAt off sz w = .wrIn w) ∨ (sz = .b4 ∧ off = 0x04#8 ∧ writeAt off sz w = .wrOut w) ∨
      (sz = .b4 ∧ off = 0x08#8 ∧ writeAt off sz w = .wrDir w) ∨
      (selectsRegister off sz = false ∧ writeAt off sz w = .wrBad off sz w) := by
  unfold writeAt
  split
  · next h => exact .inl ⟨h.1, h.2, rfl⟩
  split
  · next h => exact .inr (.inl ⟨h.1, h.2, rfl⟩)
  split
  · next h => exact .inr (.inr (.inl ⟨h.1, h.2, rfl⟩))
  · next h0 h4 h8 =>
    refine .inr (.inr (.inr ⟨?_, rfl⟩))
    unfold selectsRegister
    cases sz <;> simp_all

/-! ## A descriptor is its fields: the formats, made again from the fields of a descriptor (R53, R55 to R57) -/

/-- A format-B descriptor with clear reserved bits is the format of its own class, width and offset. -/
theorem formatB_of_fields {D : BitVec 16} {c : BitVec 3} (hc : fieldCls D = c) (h : reservedB D = 0#3) :
    formatB c (widthOfCode (fieldSz D)) (fieldOff D) = D := by
  subst hc
  apply BitVec.eq_of_getLsbD_eq
  intro i hi
  have hr : ∀ j, (reservedB D).getLsbD j = false := by intro j; rw [h]; simp
  simp only [reservedB, BitVec.getLsbD_extractLsb'] at hr
  simp only [formatB, BitVec.getLsbD_append, codeOfWidth_widthOfCode, fieldCls, fieldSz, fieldOff,
    BitVec.getLsbD_extractLsb']
  by_cases h1 : i < 8
  · simp [h1]
  by_cases h2 : i - 8 < 3
  · have := hr (i - 8)
    simp only [h2, decide_true, Bool.true_and] at this
    rw [show 8 + (i - 8) = i by omega] at this
    simp [h1, h2, this]
  by_cases h3 : i - 8 - 3 < 2
  · simp only [h1, h2, h3, decide_true, Bool.true_and, if_true, if_false]
    congr 1; omega
  · simp only [h1, h2, h3, if_false]
    rw [show 13 + (i - 8 - 3 - 2) = i by omega]
    simp; omega

/-- A format-S descriptor with clear reserved bits is the format of its own level and pin. -/
theorem formatS_of_fields {D : BitVec 16} (hc : fieldCls D = 0b010#3) (h : reservedS D = 0#6) :
    formatS (fieldLvl D) (fieldPin D) = D := by
  apply BitVec.eq_of_getLsbD_eq
  intro i hi
  have hr : ∀ j, (reservedS D).getLsbD j = false := by intro j; rw [h]; simp
  have hcls : ∀ j, (fieldCls D).getLsbD j = (0b010#3).getLsbD j := by intro j; rw [hc]
  simp only [reservedS, fieldCls, BitVec.getLsbD_extractLsb'] at hr hcls
  simp only [formatS, BitVec.getLsbD_append, fieldLvl, fieldPin, BitVec.getLsbD_extractLsb']
  by_cases h1 : i < 6
  · simp [h1]
  by_cases h2 : i - 6 < 1
  · obtain rfl : i = 6 := by omega
    simp
  by_cases h3 : i - 6 - 1 < 6
  · have := hr (i - 7)
    rw [show 7 + (i - 7) = i by omega] at this
    simp only [h1, h2, h3, if_true, if_false]
    simpa [show i - 7 < 6 by omega] using this.symm
  · have := hcls (i - 13)
    rw [show 13 + (i - 13) = i by omega] at this
    simp only [h1, h2, h3, if_false]
    rw [show i - 6 - 1 - 6 = i - 13 by omega, ← this]
    simp; omega

/-- A format-N descriptor with clear reserved bits is the format of its own class. -/
theorem formatN_of_fields {D : BitVec 16} {c : BitVec 3} (hc : fieldCls D = c) (h : reservedN D = 0#13) :
    formatN c = D := by
  subst hc
  apply BitVec.eq_of_getLsbD_eq
  intro i hi
  have hr : ∀ j, (reservedN D).getLsbD j = false := by intro j; rw [h]; simp
  simp only [reservedN, BitVec.getLsbD_extractLsb'] at hr
  simp only [formatN, BitVec.getLsbD_append, fieldCls, BitVec.getLsbD_extractLsb']
  by_cases h1 : i < 13
  · have := hr i
    simp [h1] at this ⊢
    exact this
  · simp only [h1, if_false]
    rw [show 13 + (i - 13) = i by omega]
    simp; omega

/-- A format-R descriptor with clear reserved bits is the format of its own version. -/
theorem formatR_of_fields {D : BitVec 16} (hc : fieldCls D = 0b101#3) (h : reservedR D = 0#5) :
    formatR (fieldVer D) = D := by
  apply BitVec.eq_of_getLsbD_eq
  intro i hi
  have hr : ∀ j, (reservedR D).getLsbD j = false := by intro j; rw [h]; simp
  have hcls : ∀ j, (fieldCls D).getLsbD j = (0b101#3).getLsbD j := by intro j; rw [hc]
  simp only [reservedR, fieldCls, BitVec.getLsbD_extractLsb'] at hr hcls
  simp only [formatR, BitVec.getLsbD_append, fieldVer, BitVec.getLsbD_extractLsb']
  by_cases h1 : i < 8
  · simp [h1]
  by_cases h2 : i - 8 < 5
  · have := hr (i - 8)
    rw [show 8 + (i - 8) = i by omega] at this
    simp only [h1, h2, if_true, if_false]
    simpa [h2] using this.symm
  · have := hcls (i - 13)
    rw [show 13 + (i - 13) = i by omega] at this
    simp only [h1, h2, if_false]
    rw [show i - 8 - 5 = i - 13 by omega, ← this]
    simp; omega

/-! ## The masks of the opcode table, as class and reserved fields (R60) -/

/-- Two bit vectors are equal when their bits are. -/
theorem bits_eq_iff {n : Nat} (x y : BitVec n) : x = y ↔ ∀ i, i < n → x.getLsbD i = y.getLsbD i :=
  ⟨fun h _ _ => by rw [h], fun h => BitVec.eq_of_getLsbD_eq h⟩

/-- The mask of `RD_BAD`'s row: class 000 and clear reserved bits. -/
theorem rdMask_iff (D : BitVec 16) : D &&& 0xE700#16 = 0x0000#16 ↔ fieldCls D = 0b000#3 ∧ reservedB D = 0#3 := by
  unfold fieldCls reservedB
  rw [bits_eq_iff, bits_eq_iff, bits_eq_iff]
  simp only [Nat.forall_lt_succ_right, BitVec.getLsbD_and, BitVec.getLsbD_extractLsb']
  simp
  tauto

/-- The mask of `WR_BAD`'s row. -/
theorem wrMask_iff (D : BitVec 16) : D &&& 0xE700#16 = 0x2000#16 ↔ fieldCls D = 0b001#3 ∧ reservedB D = 0#3 := by
  unfold fieldCls reservedB
  rw [bits_eq_iff, bits_eq_iff, bits_eq_iff]
  simp only [Nat.forall_lt_succ_right, BitVec.getLsbD_and, BitVec.getLsbD_extractLsb']
  simp
  tauto

/-- The mask of `STIM`'s row. -/
theorem stimMask_iff (D : BitVec 16) : D &&& 0xFF80#16 = 0x4000#16 ↔ fieldCls D = 0b010#3 ∧ reservedS D = 0#6 := by
  unfold fieldCls reservedS
  rw [bits_eq_iff, bits_eq_iff, bits_eq_iff]
  simp only [Nat.forall_lt_succ_right, BitVec.getLsbD_and, BitVec.getLsbD_extractLsb']
  simp
  tauto

/-- The mask of `RESTORE`'s row. -/
theorem restoreMask_iff (D : BitVec 16) : D &&& 0xFF00#16 = 0xA000#16 ↔ fieldCls D = 0b101#3 ∧ reservedR D = 0#5 := by
  unfold fieldCls reservedR
  rw [bits_eq_iff, bits_eq_iff, bits_eq_iff]
  simp only [Nat.forall_lt_succ_right, BitVec.getLsbD_and, BitVec.getLsbD_extractLsb']
  simp
  tauto

/-- Everything the decoder can answer: the class, the clear reserved bits and the operand words of each operation
(R59). -/
theorem decode_cases {r : Request} {i : Instr} (h : decode r = .ok i) :
    (fieldCls r.desc = 0b000#3 ∧ reservedB r.desc = 0#3 ∧ r.operands = [] ∧
      i = readAt (fieldOff r.desc) (widthOfCode (fieldSz r.desc))) ∨
    (fieldCls r.desc = 0b001#3 ∧ reservedB r.desc = 0#3 ∧ ∃ w, r.operands = [w] ∧
      i = writeAt (fieldOff r.desc) (widthOfCode (fieldSz r.desc)) w) ∨
    (fieldCls r.desc = 0b010#3 ∧ reservedS r.desc = 0#6 ∧ r.operands = [] ∧
      i = .stim (fieldPin r.desc).toNat (fieldLvl r.desc)) ∨
    (fieldCls r.desc = 0b011#3 ∧ reservedN r.desc = 0#13 ∧ r.operands = [] ∧ i = .reset) ∨
    (fieldCls r.desc = 0b100#3 ∧ reservedN r.desc = 0#13 ∧ r.operands = [] ∧ i = .save) ∨
    (fieldCls r.desc = 0b101#3 ∧ reservedR r.desc = 0#5 ∧ ∃ v d, r.operands = [v, d] ∧
      i = .restore (fieldVer r.desc) v d) := by
  unfold decode at h
  split at h
  · next hc =>
    split at h
    · cases h
    · next hr => exact .inl ⟨hc, by simpa using hr, (withoutOperands_ok _ _ _).mp h⟩
  split at h
  · next hc =>
    split at h
    · cases h
    · next hr => exact .inr (.inl ⟨hc, by simpa using hr, (withOneOperand_ok _ _ _).mp h⟩)
  split at h
  · next hc =>
    split at h
    · cases h
    · next hr => exact .inr (.inr (.inl ⟨hc, by simpa using hr, (withoutOperands_ok _ _ _).mp h⟩))
  split at h
  · next hc =>
    split at h
    · cases h
    · next hr => exact .inr (.inr (.inr (.inl ⟨hc, by simpa using hr, (withoutOperands_ok _ _ _).mp h⟩)))
  split at h
  · next hc =>
    split at h
    · cases h
    · next hr => exact .inr (.inr (.inr (.inr (.inl ⟨hc, by simpa using hr, (withoutOperands_ok _ _ _).mp h⟩))))
  split at h
  · next hc =>
    split at h
    · cases h
    · next hr => exact .inr (.inr (.inr (.inr (.inr ⟨hc, by simpa using hr, (withTwoOperands_ok _ _ _).mp h⟩))))
  · cases h

end Sys2Proof
end

