-- ==== Sys2Proof/Laws/LinePropagation.lean ====
section
/-! SUPPORT. What the edge detector and the multiplexer emit: which notifications, in which order, and never another
event. -/

namespace Sys2Proof.Machine

theorem mem_changedPins (c : Config) (w : Word) (i : Nat) :
    i ∈ changedPins c w ↔ i < c.pinCount ∧ w.getLsbD i = true := by
  simp [changedPins]

/-- The pins are taken in ascending order, each once (R80, R81). -/
theorem changedPins_ascending (c : Config) (w : Word) : (changedPins c w).Pairwise (· < ·) :=
  List.Pairwise.filter _ List.pairwise_lt_range

theorem changedPins_length_le (c : Config) (w : Word) : (changedPins c w).length ≤ c.pinCount := by
  simpa [changedPins] using List.length_filter_le (fun i => w.getLsbD i) (List.range c.pinCount)

@[simp] theorem changedPins_zero (c : Config) : changedPins c 0#32 = [] := by
  simp [changedPins]

theorem mem_routeOut (c : Config) (i : Nat) (b : Bool) (e : Event) :
    e ∈ routeOut c i b ↔ c.outBoundAt i = true ∧ e = .outNotify i b := by
  unfold routeOut; split <;> simp_all

theorem mem_routeDir (c : Config) (i : Nat) (b : Bool) (e : Event) :
    e ∈ routeDir c i b ↔ c.dirBoundAt i = true ∧ e = .dirNotify i b := by
  unfold routeDir; split <;> simp_all

/-- The notifications of an `OUT` write (R80, R82). -/
theorem mem_edgeOut (c : Config) (p n d : Word) (e : Event) :
    e ∈ edgeOut c p n d ↔ ∃ i, i < c.pinCount ∧ d.getLsbD i = true ∧ p.getLsbD i ≠ n.getLsbD i ∧
      c.outBoundAt i = true ∧ e = .outNotify i (n.getLsbD i) := by
  simp only [edgeOut, List.mem_flatMap, mem_changedPins, mem_routeOut, BitVec.getLsbD_and, BitVec.getLsbD_xor,
    Bool.and_eq_true, bne_iff_ne, ne_eq]
  constructor
  · rintro ⟨i, ⟨h1, h2, h3⟩, h4, h5⟩; exact ⟨i, h1, h3, by simpa using h2, h4, h5⟩
  · rintro ⟨i, h1, h3, h2, h4, h5⟩; exact ⟨i, ⟨h1, by simpa using h2, h3⟩, h4, h5⟩

/-- The notifications of a `DIR` write (R81, R82). -/
theorem mem_edgeDir (c : Config) (p n : Word) (e : Event) :
    e ∈ edgeDir c p n ↔ ∃ i, i < c.pinCount ∧ p.getLsbD i ≠ n.getLsbD i ∧ c.dirBoundAt i = true ∧
      e = .dirNotify i (n.getLsbD i) := by
  simp only [edgeDir, List.mem_flatMap, mem_changedPins, mem_routeDir, BitVec.getLsbD_xor]
  constructor
  · rintro ⟨i, ⟨h1, h2⟩, h4, h5⟩; exact ⟨i, h1, by simpa using h2, h4, h5⟩
  · rintro ⟨i, h1, h2, h4, h5⟩; exact ⟨i, ⟨h1, by simpa using h2⟩, h4, h5⟩

/-- A write of the word already there notifies nobody (R39). -/
@[simp] theorem edgeOut_same (c : Config) (p d : Word) : edgeOut c p p d = [] := by simp [edgeOut]

@[simp] theorem edgeDir_same (c : Config) (p : Word) : edgeDir c p p = [] := by simp [edgeDir]

/-- The notified pins are the bound ones among the changed ones, in the same order (R82). -/
theorem edgeOut_pins (c : Config) (p n d : Word) :
    (edgeOut c p n d).filterMap Event.notifiedPin =
      (changedPins c ((p ^^^ n) &&& d)).filter fun i => c.outBoundAt i := by
  unfold edgeOut
  induction changedPins c ((p ^^^ n) &&& d) with
  | nil => rfl
  | cons i is ih =>
    rw [List.flatMap_cons, List.filterMap_append, ih, List.filter_cons]
    unfold routeOut; split <;> simp_all [Event.notifiedPin]

theorem edgeDir_pins (c : Config) (p n : Word) :
    (edgeDir c p n).filterMap Event.notifiedPin =
      (changedPins c (p ^^^ n)).filter fun i => c.dirBoundAt i := by
  unfold edgeDir
  induction changedPins c (p ^^^ n) with
  | nil => rfl
  | cons i is ih =>
    rw [List.flatMap_cons, List.filterMap_append, ih, List.filter_cons]
    unfold routeDir; split <;> simp_all [Event.notifiedPin]

/-- At most one notification per pin: routing adds at most one event for each pin it is given. -/
theorem edgeOut_length_le (c : Config) (p n d : Word) : (edgeOut c p n d).length ≤ c.pinCount := by
  refine le_trans ?_ (changedPins_length_le c ((p ^^^ n) &&& d))
  unfold edgeOut
  induction changedPins c ((p ^^^ n) &&& d) with
  | nil => simp
  | cons i is ih =>
    have : (routeOut c i (n.getLsbD i)).length ≤ 1 := by unfold routeOut; split <;> simp
    simp only [List.flatMap_cons, List.length_append, List.length_cons]; omega

theorem edgeDir_length_le (c : Config) (p n : Word) : (edgeDir c p n).length ≤ c.pinCount := by
  refine le_trans ?_ (changedPins_length_le c (p ^^^ n))
  unfold edgeDir
  induction changedPins c (p ^^^ n) with
  | nil => simp
  | cons i is ih =>
    have : (routeDir c i (n.getLsbD i)).length ≤ 1 := by unfold routeDir; split <;> simp
    simp only [List.flatMap_cons, List.length_append, List.length_cons]; omega

/-- The last level a trace gives a consumer, across an append: later events win (R28). -/
theorem lastOutLevel_append (i : Nat) (es fs : List Event) :
    lastOutLevel i (es ++ fs) = fs.foldl (knownAfter i) (lastOutLevel i es) := by
  simp [lastOutLevel, List.foldl_append]

/-- Events that do not notify pin `i`'s output consumer leave its level as it was. -/
theorem foldl_knownAfter_of_not_mem (i : Nat) (es : List Event) (k : Option Bool)
    (h : ∀ b, Event.outNotify i b ∉ es) : es.foldl (knownAfter i) k = k := by
  induction es generalizing k with
  | nil => rfl
  | cons e es ih =>
    have htail : ∀ b, Event.outNotify i b ∉ es := fun b hb => h b (List.mem_cons_of_mem _ hb)
    rw [List.foldl_cons, ih _ htail]
    cases e with
    | outNotify j b =>
      by_cases hj : j = i
      · exact absurd (by simp [hj]) (h b)
      · simp [knownAfter, hj]
    | readData w => rfl
    | dirNotify j b => rfl
    | diag c => rfl
    | snapshotData a b c => rfl

/-- A consumer that is notified with one level only holds that level afterwards. -/
theorem foldl_knownAfter_of_mem (i : Nat) (es : List Event) (k : Option Bool) (b : Bool)
    (hm : Event.outNotify i b ∈ es) (hu : ∀ b', Event.outNotify i b' ∈ es → b' = b) :
    es.foldl (knownAfter i) k = some b := by
  induction es generalizing k with
  | nil => simp at hm
  | cons e es ih =>
    by_cases hr : Event.outNotify i b ∈ es
    · exact ih _ hr fun b' hb' => hu b' (List.mem_cons_of_mem _ hb')
    · have he : e = .outNotify i b := by simpa [hr, eq_comm] using hm
      have hnone : ∀ b', Event.outNotify i b' ∉ es := fun b' hb' =>
        hr (hu b' (List.mem_cons_of_mem _ hb') ▸ hb')
      rw [List.foldl_cons, foldl_knownAfter_of_not_mem i es _ hnone, he]
      simp [knownAfter]

end Sys2Proof.Machine
end

