-- ==== Sys2Proof/Laws/Exec.lean ====
section
/-! SUPPORT. The one spec lemma of each meaning, and the inversion of a step. -/

namespace Sys2Proof.Machine

theorem exec_rdIn (s : State) : exec .rdIn s = .next (s.emit [.readData s.value]) := rfl

theorem exec_rdOut (s : State) : exec .rdOut s = .next (s.emit [.readData s.value]) := rfl

theorem exec_rdDir (s : State) : exec .rdDir s = .next (s.emit [.readData s.direction]) := rfl

theorem exec_rdBad (off : BitVec 8) (sz : Width) (s : State) :
    exec (.rdBad off sz) s = .next (s.emit [.diag (readDiag off sz), .readData 0#32]) := by
  show Host.Outcome.next _ = _
  rw [State.raiseDiag, State.emit_emit]; rfl

theorem exec_wrIn (w : Word) (s : State) : exec (.wrIn w) s = .next s := rfl

theorem exec_wrOut (w : Word) (s : State) :
    exec (.wrOut w) s = .next ((s.setValue (maskedWrite s.value s.direction w)).emit
      (edgeOut s.cfg s.value (maskedWrite s.value s.direction w) s.direction)) := rfl

theorem exec_wrDir (w : Word) (s : State) :
    exec (.wrDir w) s = .next (((s.setDirection (maskPins s.cfg w)).setValue
      (valueAfterDir s.cfg s.value s.direction (maskPins s.cfg w))).emit
        (edgeDir s.cfg s.direction (maskPins s.cfg w))) := rfl

theorem exec_wrBad (off : BitVec 8) (sz : Width) (w : Word) (s : State) :
    exec (.wrBad off sz w) s = .next (s.raiseDiag (writeDiag off sz)) := rfl

theorem exec_stim_range {pin : Nat} {s : State} (lvl : Bool) (h : s.cfg.pinCount ≤ pin) :
    exec (.stim pin lvl) s = .next (s.raiseDiag .stimPinRange) := by simp [exec, execStim, h]

theorem exec_stim_input {pin : Nat} {s : State} (lvl : Bool) (h : pin < s.cfg.pinCount)
    (hd : s.direction.getLsbD pin = false) :
    exec (.stim pin lvl) s = .next (s.setValue (setBit s.value pin lvl)) := by
  simp [exec, execStim, hd, show ¬ s.cfg.pinCount ≤ pin by omega]

theorem exec_stim_output {pin : Nat} {s : State} (lvl : Bool) (h : pin < s.cfg.pinCount)
    (hd : s.direction.getLsbD pin = true) : exec (.stim pin lvl) s = .next s := by
  simp [exec, execStim, hd, show ¬ s.cfg.pinCount ≤ pin by omega]

/-- Everything a stimulus can do. -/
theorem exec_stim_cases (pin : Nat) (lvl : Bool) (s : State) :
    (s.cfg.pinCount ≤ pin ∧ exec (.stim pin lvl) s = .next (s.raiseDiag .stimPinRange)) ∨
    (pin < s.cfg.pinCount ∧ s.direction.getLsbD pin = false ∧
      exec (.stim pin lvl) s = .next (s.setValue (setBit s.value pin lvl))) ∨
    (pin < s.cfg.pinCount ∧ s.direction.getLsbD pin = true ∧ exec (.stim pin lvl) s = .next s) := by
  by_cases h : s.cfg.pinCount ≤ pin
  · exact .inl ⟨h, exec_stim_range lvl h⟩
  · have hlt : pin < s.cfg.pinCount := by omega
    cases hd : s.direction.getLsbD pin
    · exact .inr (.inl ⟨hlt, rfl, exec_stim_input lvl hlt hd⟩)
    · exact .inr (.inr ⟨hlt, rfl, exec_stim_output lvl hlt hd⟩)

theorem exec_reset (s : State) : exec .reset s = .next ((s.setValue 0#32).setDirection 0#32) := rfl

theorem exec_save (s : State) : exec .save s = .next (s.emit [.snapshotData 1#8 s.value s.direction]) := rfl

theorem exec_restore_known (v d : Word) (s : State) :
    exec (.restore 1#8 v d) s = .next ((s.setValue (maskPins s.cfg v)).setDirection (maskPins s.cfg d)) := rfl

theorem exec_restore_unknown {ver : BitVec 8} (v d : Word) (s : State) (h : ver ≠ 1#8) :
    exec (.restore ver v d) s = .next (s.raiseDiag .restoreBadVersion) := by
  simp [exec, execRestore, snapshotVersion, h]

/-- Everything a step can do: wait, or run the operation that the oldest request delivered decodes to. -/
theorem step_cases {s t : State} (h : step s = .next t) :
    (s.pending = [] ∧ t = s) ∨
    (∃ r rest i, s.pending = .request r :: rest ∧ decode r = .ok i ∧ exec i { s with pending := rest } = .next t) := by
  unfold step fetch at h
  cases hp : s.pending with
  | nil =>
    rw [hp] at h
    exact .inl ⟨rfl, (Host.Outcome.next.inj h).symm⟩
  | cons d rest =>
    rw [hp] at h
    cases d with
    | request r =>
      cases hr : decode r with
      | ok i =>
        simp only [accept, hr] at h
        exact .inr ⟨r, rest, i, rfl, hr, h⟩
      | error e => simp [accept, hr] at h
    | overlapping r => simp [accept] at h
    | reentrant r => simp [accept] at h
    | instructionFetch off => simp [accept] at h

/-- A list of operations is its first operation, then the rest. -/
theorem runAll_cons_of_next {i : Instr} {is : List Instr} {s t : State} (h : exec i s = .next t) :
    runAll (i :: is) s = runAll is t := by simp [runAll, h]

/-- A run of one more step is the step, then the rest of the run. -/
theorem core_run_succ {k : Nat} {s t : core.State} (h : core.step s = .next t) :
    core.run (k + 1) s = core.run k t := by
  rw [Host.Core.run.eq_def]
  simp only [h]

end Sys2Proof.Machine
end

