-- ==== Sys2Proof/Laws/PerInstr.lean ====
section
/-! SUPPORT. Statements made operation by operation. EncodedLength: the request of every operation carries the number
of operand words that its class gives (rule R63: "The length follows from `CLS` alone"). -/

namespace Sys2Proof.Laws.EncodedLength

/-- The encoded request has the operand words of its class. -/
def Statement (i : Instr) : Prop := (encode i).operands.length = operandCount (fieldCls (encode i).desc)

theorem rdIn : Statement .rdIn := rfl

theorem rdOut : Statement .rdOut := rfl

theorem rdDir : Statement .rdDir := rfl

theorem rdBad (off : BitVec 8) (sz : Width) : Statement (.rdBad off sz) := by
  simp [Statement, encode, formatB_cls, operandCount]

theorem wrIn (wdata : Word) : Statement (.wrIn wdata) := by simp [Statement, encode, formatB_cls, operandCount]

theorem wrOut (wdata : Word) : Statement (.wrOut wdata) := by simp [Statement, encode, formatB_cls, operandCount]

theorem wrDir (wdata : Word) : Statement (.wrDir wdata) := by simp [Statement, encode, formatB_cls, operandCount]

theorem wrBad (off : BitVec 8) (sz : Width) (wdata : Word) : Statement (.wrBad off sz wdata) := by
  simp [Statement, encode, formatB_cls, operandCount]

theorem stim (pin : Nat) (lvl : Bool) : Statement (.stim pin lvl) := by
  simp [Statement, encode, formatS_cls, operandCount]

theorem reset : Statement .reset := rfl

theorem save : Statement .save := rfl

theorem restore (ver : BitVec 8) (valueW dirW : Word) : Statement (.restore ver valueW dirW) := by
  simp [Statement, encode, formatR_cls, operandCount]

end Sys2Proof.Laws.EncodedLength
end

