-- ==== Sys2Proof/Tests/Slice0.lean ====
section
/-! SUPPORT. The model's own tests: ill-formed terms, words written out from the spec's encodings, the spec's test vectors
(95_test_vectors.md), and a witness for the hypotheses of every statement. Each expected result is the spec's. -/

namespace Sys2Proof.Tests

open Sys2Proof.Machine

/-- A state of the reset configuration (32 pins, all bound) with the two words given: the vectors' `(v, d)`. -/
def st (v d : Word) : State := { State.reset with value := v, direction := d }

/-- The same with `PIN_COUNT` 8 and every pin bound. -/
def st8 (v d : Word) : State :=
  { st v d with cfg := { Config.standard with pinCount := 8, outBound := List.range 8, dirBound := List.range 8 } }

/-- What a vector's line shows of an outcome: the words after, and the events. -/
def seen : Host.Outcome State Fault Refusal → Option (Word × Word × List Event)
  | .next t => some (t.value, t.direction, t.trace)
  | .fault _ | .refused _ => none

/-- The reason of a refusal. -/
def reason : Host.Outcome State Fault Refusal → Option Refusal
  | .refused r => some r
  | .next _ | .fault _ => none

/-- The decoder's answer as plain data. -/
def named (D : BitVec 16) (ws : List Word) : Option Instr ⊕ DecodeError :=
  match decode ⟨D, ws⟩ with
  | .ok i => .inl (some i)
  | .error e => .inr e

/-! ## WellFormed: an ill-formed term for each check -/

theorem test_wf_refuses_rdBad_of_a_register : (Instr.rdBad 0x04#8 .b4).wf = false := by decide
theorem test_wf_refuses_wrBad_of_a_register : (Instr.wrBad 0x08#8 .b4 0#32).wf = false := by decide
theorem test_wf_refuses_pin_64 : (Instr.stim 64 true).wf = false := by decide

/-! ## Decoding: words written out from the encoding strings of R53 to R57 (vectors V-DEC) -/

theorem test_decode_reads : (named 0b0001000000000000#16 [], named 0b0001000000000100#16 [], named 0b0001000000001000#16 []) =
    (.inl (some .rdIn), .inl (some .rdOut), .inl (some .rdDir)) := by decide
theorem test_decode_rdBad : (named 0b0001000000001100#16 [], named 0b0000100000000000#16 [], named 0b0001100000000000#16 [],
    named 0b0001000011111111#16 []) = (.inl (some (.rdBad 0x0C#8 .b4)), .inl (some (.rdBad 0x00#8 .b2)),
    .inl (some (.rdBad 0x00#8 .b8)), .inl (some (.rdBad 0xFF#8 .b4))) := by decide
theorem test_decode_writes : (named 0b0011000000000000#16 [7#32], named 0b0011000000000100#16 [7#32],
    named 0b0011000000001000#16 [7#32]) = (.inl (some (.wrIn 7#32)), .inl (some (.wrOut 7#32)), .inl (some (.wrDir 7#32))) := by
  decide
theorem test_decode_wrBad : named 0b0010000000000100#16 [7#32] = .inl (some (.wrBad 0x04#8 .b1 7#32)) := by decide
theorem test_decode_stim : (named 0b0100000001000001#16 [], named 0b0100000001111111#16 []) =
    (.inl (some (.stim 1 true)), .inl (some (.stim 63 true))) := by decide
theorem test_decode_reset_save : (named 0b0110000000000000#16 [], named 0b1000000000000000#16 []) =
    (.inl (some .reset), .inl (some .save)) := by decide
theorem test_decode_restore : named 0b1010000000000001#16 [3#32, 1#32] = .inl (some (.restore 1#8 3#32 1#32)) := by decide
theorem test_decode_refuses_reserved_bits : [named 0x4080#16 [], named 0x6001#16 [], named 0x8010#16 [],
    named 0xA101#16 [3#32, 1#32], named 0x1100#16 [], named 0x3700#16 [0#32]] = List.replicate 6 (.inr .reservedBits) := by decide
theorem test_decode_refuses_reserved_classes : [named 0xC000#16 [], named 0xE000#16 [], named 0xFFFF#16 []] =
    List.replicate 3 (.inr .reservedClass) := by decide
theorem test_decode_refuses_operand_counts : [named 0x1000#16 [0#32], named 0x3004#16 [], named 0xA001#16 [0#32]] =
    List.replicate 3 (.inr .operandWords) := by decide
theorem test_decode_table_word : (decodeTableWord 16 0x3004, decodeTableWord 48 0x00000005_3004,
    decodeTableWord 80 0x00000001_00000003_A001) =
    (some (.wrOut 0#32), some (.wrOut 5#32), some (.restore 1#8 3#32 1#32)) := by decide

/-- The match words of the twelve rows of spec/opcode_table.json, operand words of zeros, in the table's order. -/
theorem test_decode_table_rows : [0x1000, 0x1004, 0x1008, 0x0000, 0x3000, 0x3004, 0x3008, 0x2000, 0x4000, 0x6000, 0x8000,
    0xA000].map (decodeTableWord 16) = [some .rdIn, some .rdOut, some .rdDir, some (.rdBad 0x00#8 .b1), some (.wrIn 0#32),
    some (.wrOut 0#32), some (.wrDir 0#32), some (.wrBad 0x00#8 .b1 0#32), some (.stim 0 false), some .reset, some .save,
    some (.restore 0#8 0#32 0#32)] := by decide

/-- The model's choice of log 23: missing operand bits are zeros, and bits past the request's length are dropped. -/
theorem test_ofBits_fills_and_drops : (Request.ofBits 16 0x3004, Request.ofBits 48 0x00000005_1000) =
    (⟨0x3004#16, [0#32]⟩, ⟨0x1000#16, []⟩) := by decide

/-! ## Bus reads (V-RD) -/

theorem test_rdIn : seen (exec .rdIn (st 0x15#32 0x0F#32)) = some (0x15#32, 0x0F#32, [.readData 0x15#32]) := by decide
theorem test_rdOut : seen (exec .rdOut (st 0x15#32 0x0F#32)) = some (0x15#32, 0x0F#32, [.readData 0x15#32]) := by decide
theorem test_rdDir : seen (exec .rdDir (st 0x15#32 0x0F#32)) = some (0x15#32, 0x0F#32, [.readData 0x0F#32]) := by decide
theorem test_rdBad_offset : seen (exec (.rdBad 0xFC#8 .b4) (st 0x15#32 0x0F#32)) =
    some (0x15#32, 0x0F#32, [.diag .rdBadOffset, .readData 0#32]) := by decide
theorem test_rdBad_order : (seen (exec (.rdBad 0x09#8 .b4) (st 0#32 0#32)), seen (exec (.rdBad 0x0D#8 .b1) (st 0#32 0#32))) =
    (some (0#32, 0#32, [.diag .rdMisaligned, .readData 0#32]), some (0#32, 0#32, [.diag .rdBadSize, .readData 0#32])) := by
  decide

/-! ## Bus writes (V-OUT, V-DIR, V-WIN, V-WBAD) -/

theorem test_wrOut_masks : seen (exec (.wrOut 0xA5#32) (st 0x30#32 0x0F#32)) =
    some (0x35#32, 0x0F#32, [.outNotify 0 true, .outNotify 2 true]) := by decide
theorem test_wrOut_eight_pins : seen (exec (.wrOut 0x1FF#32) (st8 0#32 0xFF#32)) =
    some (0xFF#32, 0xFF#32, [.outNotify 0 true, .outNotify 1 true, .outNotify 2 true, .outNotify 3 true,
      .outNotify 4 true, .outNotify 5 true, .outNotify 6 true, .outNotify 7 true]) := by decide
theorem test_wrOut_unbound_pin : seen (exec (.wrOut 3#32)
    { st 0#32 3#32 with cfg := { Config.standard with outBound := [1, 2] } }) =
    some (3#32, 3#32, [.outNotify 1 true]) := by decide
theorem test_wrDir_order : seen (exec (.wrDir 6#32) (st 0#32 1#32)) =
    some (0#32, 6#32, [.dirNotify 0 false, .dirNotify 1 true, .dirNotify 2 true]) := by decide
theorem test_wrDir_drops_high_bits : seen (exec (.wrDir 0xFFFFFF0F#32) (st8 0#32 0x0F#32)) = some (0#32, 0x0F#32, []) := by
  decide
theorem test_wrDir_retains_value : seen (exec (.wrDir 0#32) (st 1#32 1#32)) = some (1#32, 0#32, [.dirNotify 0 false]) := by
  decide
theorem test_wrDir_other_reading_of_I1 : seen (exec (.wrDir 2#32)
    { st 3#32 1#32 with cfg := { Config.standard with dirToInputClears := true } }) =
    some (2#32, 2#32, [.dirNotify 0 false, .dirNotify 1 true]) := by decide
theorem test_wrIn : seen (exec (.wrIn 1#32) (st 0#32 1#32)) = some (0#32, 1#32, []) := by decide
theorem test_wrBad : (seen (exec (.wrBad 0x04#8 .b8 0xFF#32) (st 0#32 0xFF#32)),
    seen (exec (.wrBad 0x06#8 .b4 5#32) (st 0#32 0#32)), seen (exec (.wrBad 0x0C#8 .b4 1#32) (st 0#32 0#32))) =
    (some (0#32, 0xFF#32, [.diag .wrBadSize]), some (0#32, 0#32, [.diag .wrMisaligned]),
      some (0#32, 0#32, [.diag .wrBadOffset])) := by decide

/-! ## Stimulus, reset, snapshot (V-ST, V-RS, V-SN) -/

theorem test_stim_input : (seen (exec (.stim 1 false) (st 2#32 1#32)), seen (exec (.stim 31 true) (st 0#32 0#32))) =
    (some (0#32, 1#32, []), some (0x80000000#32, 0#32, [])) := by decide
theorem test_stim_output_and_range : (seen (exec (.stim 0 false) (st 1#32 1#32)), seen (exec (.stim 8 true) (st8 0#32 0#32))) =
    (some (1#32, 1#32, []), some (0#32, 0#32, [.diag .stimPinRange])) := by decide
theorem test_reset : seen (exec .reset (st 0xFFFFFFFF#32 0xFFFFFFFF#32)) = some (0#32, 0#32, []) := by decide
theorem test_save : seen (exec .save (st 2#32 1#32)) = some (2#32, 1#32, [.snapshotData 1#8 2#32 1#32]) := by decide
theorem test_restore : (seen (exec (.restore 1#8 0x1FF#32 0xF0F#32) (st8 0#32 0#32)),
    seen (exec (.restore 2#8 3#32 1#32) (st 0#32 0#32))) =
    (some (0xFF#32, 0x0F#32, []), some (0#32, 0#32, [.diag .restoreBadVersion])) := by decide

/-! ## Construction, the step, the window -/

theorem test_construct_reset : seen (construct Config.standard) = some (0#32, 0#32, []) := by decide
theorem test_step_refuses_reserved : reason (step (State.reset.withFetchWord 16 0x1100)) =
    some (.undecodable .reservedBits) := by decide
theorem test_window_byte : (windowByte (st 0x11223344#32 0#32) 0x06#8, windowByte (st 0#32 0#32) 0x0C#8) =
    (some 0x22#8, none) := by decide
theorem test_pin_mask_of_eight : pinMask (st8 0#32 0#32).cfg = 0xFF#32 := by decide

/-! ## Witnesses: for each statement with hypotheses, a concrete case that meets all of them together -/

theorem reset_state_meets_inv : State.reset.Inv := ⟨by decide, by decide, by decide⟩
theorem eight_pins_meet_inv : (st8 0xF0#32 0x0F#32).Inv := ⟨by decide, by decide, by decide⟩

theorem witness_ConstructionZeroesOrRefuses :
    (1 ≤ (st8 0#32 0#32).cfg.pinCount ∧ (st8 0#32 0#32).cfg.pinCount ≤ 32 ∧
      ∀ i, 8 ≤ i → (st8 0#32 0#32).cfg.outBoundAt i = false ∧ (st8 0#32 0#32).cfg.dirBoundAt i = false) ∧
    ({ Config.standard with pinCount := 0 } : Config).pinCount < 1 ∧
    32 < ({ Config.standard with pinCount := 33 } : Config).pinCount ∧
    (({ Config.standard with pinCount := 8 } : Config).pinCount ≤ 8 ∧
      ({ Config.standard with pinCount := 8 } : Config).outBoundAt 8 = true) := by
  refine ⟨⟨by decide, by decide, fun i hi => ?_⟩, by decide, by decide, by decide, by decide⟩
  simp only [Config.outBoundAt, Config.dirBoundAt, st8, List.contains_eq_mem, List.mem_range]
  constructor <;> exact decide_eq_false (by omega)
theorem witness_FreshAndResetInstancesBehaveAlike : ∃ t u, construct Config.standard = .next t ∧
    (st 5#32 7#32).cfg = Config.standard ∧ exec .reset (st 5#32 7#32) = .next u := ⟨_, _, rfl, rfl, rfl⟩
theorem witness_DecodeOfEncodeIsTheOperation : (Instr.rdBad 0x0C#8 .b4).wf = true ∧ (Instr.stim 63 true).wf = true := by decide
theorem witness_EncodeOfDecodeIsTheRequest : ∃ i, decode ⟨0x10FF#16, []⟩ = .ok i := ⟨_, rfl⟩
theorem witness_DescriptorMatchesItsTableRow : ∃ i j, decode ⟨0x0000#16, []⟩ = .ok i ∧ decode ⟨0x2000#16, [0#32]⟩ = .ok j :=
  ⟨_, _, rfl, rfl⟩
theorem witness_ReservedDescriptorsAndOnlyTheyAreRefused :
    reservedDescriptor 0xC000#16 ∧ reservedDescriptor 0x1100#16 ∧ ¬ reservedDescriptor 0x1000#16 ∧
      ([] : List Word).length = operandCount (fieldCls 0x1000#16) := by
  unfold reservedDescriptor; decide
theorem witness_RequestLengthFollowsFromTheClass : ∃ i, decode ⟨0xA0FF#16, [1#32, 2#32]⟩ = .ok i := ⟨_, rfl⟩
theorem witness_StepRunsTheOldestRequest : (State.reset.withFetchWord 16 0x1000).pending = .request ⟨0x1000#16, []⟩ :: [] ∧
    decode ⟨0x1000#16, []⟩ = .ok .rdIn := ⟨by decide, rfl⟩
theorem witness_PlacedRequestRunsNext : decodeTableWord 16 0xA001 = some (.restore 1#8 0#32 0#32) := by decide
theorem witness_UnserializedItemsHaveNoStep : ∃ a b c : State, a.pending = .overlapping ⟨0x1000#16, []⟩ :: [] ∧
    b.pending = .reentrant ⟨0x1000#16, []⟩ :: [] ∧ c.pending = .instructionFetch 0#8 :: [] :=
  ⟨State.reset.deliver (.overlapping ⟨0x1000#16, []⟩), State.reset.deliver (.reentrant ⟨0x1000#16, []⟩),
    State.reset.deliver (.instructionFetch 0#8), rfl, rfl, rfl⟩
theorem witness_BlockWaitsWithNothingDelivered : State.reset.pending = [] := rfl
theorem witness_StepKeepsInvariant : (∃ t, construct Config.standard = .next t) ∧ (State.reset.withFetchWord 16 0x405F).Inv ∧
    seen (step (State.reset.withFetchWord 16 0x405F)) = some (0x80000000#32, 0#32, []) :=
  ⟨⟨_, rfl⟩, ⟨by decide, by decide, by decide⟩, by decide⟩
theorem witness_StepKeepsConfiguration : ∃ t, step (State.reset.withFetchWord 16 0x6000) = .next t := ⟨_, rfl⟩
theorem witness_OperationsIgnoreTraceAndWaitingRequests : ∃ t, exec .save (st 2#32 1#32) = .next t := ⟨_, rfl⟩
theorem witness_SerializedRunIsTheOperationsInOrder :
    (∀ i ∈ [Instr.wrDir 1#32, .wrOut 1#32], i.wf = true) ∧
    ((State.reset.deliver (.request (encode (.wrDir 1#32)))).deliver (.request (encode (.wrOut 1#32)))).pending =
      [Instr.wrDir 1#32, .wrOut 1#32].map (fun i => .request (encode i)) := ⟨by decide, rfl⟩
theorem witness_InstancesAreIndependent : ∃ sys', stepInstance 1 [st 1#32 0#32, State.reset.withFetchWord 16 0x6000] =
    .next sys' := ⟨_, rfl⟩
theorem witness_reads_under_inv : (st8 0xF0#32 0x0F#32).Inv ∧ (st8 0xF0#32 0x0F#32).cfg.pinCount ≤ 8 ∧
    (st8 0xF0#32 0x0F#32).cfg.pinCount ≤ 32 := ⟨eight_pins_meet_inv, by decide, by decide⟩
theorem witness_ValidReadsShowNoUnusedPin_one_pin :
    ({ State.reset with cfg := { Config.standard with pinCount := 1, outBound := [0], dirBound := [] } } : State).Inv :=
  ⟨by decide, by decide, by decide⟩
theorem witness_invalid_accesses : selectsRegister 0x0C#8 .b4 = false ∧ selectsRegister 0x00#8 .b2 = false := by decide
theorem witness_ReadsRepeat : ∀ i ∈ [Instr.rdIn, .rdBad 0x0C#8 .b4, .rdDir], isRead i = true := by decide
theorem witness_EncodingExamplesDecode : State.reset.cfg.pinCount ≤ 32 := by decide
theorem witness_OutWriteSetsOutputPinsOnly : (st8 0xF0#32 0x0F#32).Inv ∧ (st8 0xF0#32 0#32).direction = 0#32 ∧
    0xF0#32 = (st8 0xF0#32 0x0F#32).value := ⟨eight_pins_meet_inv, rfl, rfl⟩
theorem witness_WriteLaws : (st8 0xF0#32 0x0F#32).Inv ∧ (st8 0xF0#32 0x0F#32).cfg.dirToInputClears = false ∧
    0xF0#32 = (st8 0xF0#32 0x0F#32).value ∧ 0x0F#32 = (st8 0xF0#32 0x0F#32).direction :=
  ⟨eight_pins_meet_inv, rfl, rfl, rfl⟩
theorem witness_DirWriteReplacesDirection : (st8 3#32 1#32).cfg.pinCount ≤ 32 ∧ (st 3#32 1#32).cfg.pinCount = 32 ∧
    (st 3#32 1#32).cfg.dirToInputClears = false ∧
    ({ Config.standard with dirToInputClears := true } : Config).dirToInputClears = true ∧
    0xFFFFFF0F#32 &&& pinMask (st8 0#32 0x0F#32).cfg = (st8 0#32 0x0F#32).direction := by decide
theorem witness_BusChecksRunInOrder : Width.b8.bytes ≠ 4 ∧ (0xFF#8).toNat % 4 ≠ 0 ∧ (0x0C#8).toNat % 4 = 0 ∧
    0x0C ≤ (0x0C#8).toNat ∧ (0x08#8).toNat % 4 = 0 ∧ (0x08#8).toNat < 0x0C := by decide
theorem witness_OnlyTheNamedOperationsWriteTheWords : ∃ t u, exec (.stim 1 true) (st 0#32 0#32) = .next t ∧
    t.value ≠ (st 0#32 0#32).value ∧ exec (.wrDir 1#32) (st 0#32 0#32) = .next u ∧
    u.direction ≠ (st 0#32 0#32).direction := ⟨_, _, rfl, by decide, rfl, by decide⟩
theorem witness_DiagnosticsChangeNoWord : ¬ DiagFree [.diag .stimPinRange] := fun h => by
  have := h _ (List.mem_singleton.mpr rfl)
  cases this
theorem witness_StimulusSetsTheInputPin : (st 0#32 1#32).cfg.pinCount ≤ 32 ∧ 31 < (st 0#32 1#32).cfg.pinCount ∧
    (st 0#32 1#32).direction.getLsbD 31 = false := by decide
theorem witness_StimulusOnAnOutputPinIsDiscarded : 0 < (st 0#32 1#32).cfg.pinCount ∧
    (st 0#32 1#32).direction.getLsbD 0 = true := by decide
theorem witness_StimulusOutOfRangeIsRejected : (st8 0#32 0#32).cfg.pinCount ≤ 8 ∧ (st 0#32 0#32).cfg.pinCount ≤ 63 := by
  decide
theorem witness_RestoreLoadsBothWordsOrRejects : (st8 0#32 0#32).cfg.pinCount ≤ 32 ∧ (0#8 : BitVec 8) ≠ 1#8 := by decide
theorem witness_SaveThenRestoreGivesTheWordsBack : ∃ s', (st8 0xF0#32 0x0F#32).Inv ∧
    exec .save (st8 0xF0#32 0x0F#32) = .next s' ∧
    s'.trace = (st8 0xF0#32 0x0F#32).trace ++ [.snapshotData 1#8 0xF0#32 0x0F#32] ∧
    (st8 0#32 0#32).cfg = (st8 0xF0#32 0x0F#32).cfg := ⟨_, eight_pins_meet_inv, rfl, rfl, rfl⟩
theorem witness_OutWriteBeforeDirIsLost : (st 0#32 0#32).cfg.pinCount ≤ 32 ∧ 31 < (st 0#32 0#32).cfg.pinCount ∧
    (st 0#32 0#32).direction.getLsbD 31 = false ∧ (0x80000000#32).getLsbD 31 = true := by decide
theorem witness_output_to_input : (st 1#32 1#32).cfg.pinCount ≤ 32 ∧ (st 1#32 1#32).cfg.dirToInputClears = false ∧
    0 < (st 1#32 1#32).cfg.pinCount ∧ (st 1#32 1#32).direction.getLsbD 0 = true ∧ (0#32).getLsbD 0 = false ∧
    (∀ o ∈ [Instr.rdIn, .wrOut 0#32, .save, .wrIn 5#32, .wrBad 0x0C#8 .b4 5#32, .stim 1 true],
      (∀ w, o ≠ .wrDir w) ∧ o ≠ .reset ∧ (∀ ver v x, o ≠ .restore ver v x) ∧ ∀ lvl, o ≠ .stim 0 lvl) := by
  refine ⟨by decide, by decide, by decide, by decide, by decide, fun o ho => ?_⟩
  simp only [List.mem_cons, List.not_mem_nil, or_false] at ho
  rcases ho with rfl | rfl | rfl | rfl | rfl | rfl <;> simp
theorem witness_ConsumerLevelFollowsOnlyChanges : ∃ t, exec (.wrOut 1#32) (st 0#32 1#32) = .next t ∧
    lastOutLevel 0 t.trace ≠ lastOutLevel 0 (st 0#32 1#32).trace := ⟨_, rfl, by decide⟩
theorem witness_TwoOutWritesResyncTheConsumer : 2 < (st 4#32 4#32).cfg.pinCount ∧ (st 4#32 4#32).cfg.outBoundAt 2 = true ∧
    (st 4#32 4#32).direction.getLsbD 2 = true ∧ (0#32).getLsbD 2 = !true ∧ (4#32).getLsbD 2 = true := by decide
theorem witness_BusAccessesReachTheWindowOnly :
    let s : State := { State.reset with cfg := { Config.standard with gpioBase := 0x1000 } }
    (0x1000 = s.cfg.gpioBase + (0x00#8).toNat ∧ 0x10FF = s.cfg.gpioBase + (0xFF#8).toNat) ∧
      0xFFF < s.cfg.gpioBase ∧ s.cfg.gpioBase + 0x100 ≤ 0x1100 := by decide
theorem witness_ByteLanesAreLittleEndian : 3 < 4 ∧ 0x0C ≤ (0x0C#8).toNat ∧ 7 < 8 := by decide
theorem witness_PinMaskHasTheLowBits : 1 ≤ (st8 0#32 0#32).cfg.pinCount ∧ (st8 0#32 0#32).cfg.pinCount = 8 ∧
    Config.standard.pinCount = 32 := by decide

end Sys2Proof.Tests
end

section
/-! The scope statements (00_scope.md): the pin mask of R6, and which operation a step runs (R10, R42). -/

namespace Sys2Proof.Machine

/-! ## The pin mask -/

/-- R6's formula: the definition, in the form that proofs rewrite with. -/
theorem pinMask_eq (c : Config) :
    pinMask c = if c.pinCount = 32 then 0xFFFFFFFF#32 else (1#32 <<< c.pinCount) - 1#32 := rfl

/-- Settles O59: the bits are `pinMask_getLsbD`, and the two values are R6's formula at 32 and at 8 pins. -/
theorem pinMaskHasTheLowBits : Obligations.PinMaskHasTheLowBits := by
  refine ⟨fun c i _ hle => pinMask_getLsbD c i hle, pinMask_eq, fun c h32 => ?_, fun c h8 => ?_⟩
  · rw [pinMask_eq, if_pos h32]
  · rw [pinMask_eq, h8]; decide

/-! ## The request a step takes -/

/-- The oldest delivered item is the one fetched, and it no longer waits afterwards (R42). -/
theorem fetch_of_pending {s : State} {d : Delivery} {rest : List Delivery} (hp : s.pending = d :: rest) :
    fetch s = some (accept d, { s with pending := rest }) := by rw [fetch, hp]

/-- A request is accepted as the operation it decodes to. -/
theorem accept_request_of_decode {r : Request} {i : Instr} (hr : decode r = .ok i) :
    accept (.request r) = .ok i := by rw [accept, hr]

/-- A step runs the operation that the oldest delivered item is accepted as. -/
theorem step_of_accept_ok {s : State} {d : Delivery} {rest : List Delivery} {i : Instr}
    (hp : s.pending = d :: rest) (ha : accept d = .ok i) : step s = exec i { s with pending := rest } := by
  rw [step, fetch_of_pending hp, ha]

/-- An opcode-table word names an operation exactly when the request laid out from it decodes to that operation. -/
theorem decodeTableWord_eq_some_iff (nbits w : Nat) (i : Instr) :
    decodeTableWord nbits w = some i ↔ decode (Request.ofBits nbits w) = .ok i := by
  unfold decodeTableWord
  cases decode (Request.ofBits nbits w) <;> simp

/-- Settles O14: the request is fetched as the operation it decodes to. -/
theorem stepRunsTheOldestRequest : Obligations.StepRunsTheOldestRequest :=
  fun _ _ _ _ hp hr => step_of_accept_ok hp (accept_request_of_decode hr)

/-- Settles O15: the placed request is the oldest one, and once taken it leaves the state it was placed in. -/
theorem placedRequestRunsNext : Obligations.PlacedRequestRunsNext := by
  intro s nbits w i h
  have hr : decode (Request.ofBits nbits w) = .ok i := (decodeTableWord_eq_some_iff nbits w i).mp h
  exact stepRunsTheOldestRequest (s.withFetchWord nbits w) (Request.ofBits nbits w) s.pending i rfl hr

end Sys2Proof.Machine
end

section
/-! The state statements (10_state.md): an operation's whole effect as functions of the configuration and the two words
alone (R15, R28), and from it who writes each word (R27), the invariant (R18) and the fixed configuration (R19); with
the write to `IN` (R74). -/

namespace Sys2Proof.Machine

/-! ## The effect of an operation, as a function of the configuration and the two words -/

/-- `value` after an operation (tied to `exec` by `exec_eq_after`, as the two below). -/
def valueAfter (c : Config) (v d : Word) : Instr → Word
  | .wrOut w => maskedWrite v d w
  | .wrDir w => valueAfterDir c v d (maskPins c w)
  | .stim pin lvl => if pin < c.pinCount ∧ d.getLsbD pin = false then setBit v pin lvl else v
  | .reset => 0#32
  | .restore ver vw _ => if ver = 1#8 then maskPins c vw else v
  | .rdIn | .rdOut | .rdDir | .rdBad _ _ | .wrIn _ | .wrBad _ _ _ | .save => v

/-- `direction` after an operation. -/
def directionAfter (c : Config) (d : Word) : Instr → Word
  | .wrDir w => maskPins c w
  | .reset => 0#32
  | .restore ver _ dw => if ver = 1#8 then maskPins c dw else d
  | .rdIn | .rdOut | .rdDir | .rdBad _ _ | .wrIn _ | .wrOut _ | .wrBad _ _ _ | .stim _ _ | .save => d

/-- The events an operation emits, in order. -/
def eventsOf (c : Config) (v d : Word) : Instr → List Event
  | .rdIn | .rdOut => [.readData v]
  | .rdDir => [.readData d]
  | .rdBad off sz => [.diag (readDiag off sz), .readData 0#32]
  | .wrOut w => edgeOut c v (maskedWrite v d w) d
  | .wrDir w => edgeDir c d (maskPins c w)
  | .wrBad off sz _ => [.diag (writeDiag off sz)]
  | .stim pin _ => if c.pinCount ≤ pin then [.diag .stimPinRange] else []
  | .save => [.snapshotData 1#8 v d]
  | .restore ver _ _ => if ver = 1#8 then [] else [.diag .restoreBadVersion]
  | .wrIn _ | .reset => []

/-- The state an operation leaves: no field but the two words and the trace moves. -/
def State.after (s : State) (i : Instr) : State :=
  { s with
    value := valueAfter s.cfg s.value s.direction i
    direction := directionAfter s.cfg s.direction i
    trace := s.trace ++ eventsOf s.cfg s.value s.direction i }

@[simp] theorem State.after_cfg (s : State) (i : Instr) : (s.after i).cfg = s.cfg := rfl
@[simp] theorem State.after_value (s : State) (i : Instr) :
    (s.after i).value = valueAfter s.cfg s.value s.direction i := rfl
@[simp] theorem State.after_direction (s : State) (i : Instr) :
    (s.after i).direction = directionAfter s.cfg s.direction i := rfl
@[simp] theorem State.after_trace (s : State) (i : Instr) :
    (s.after i).trace = s.trace ++ eventsOf s.cfg s.value s.direction i := rfl
@[simp] theorem State.after_pending (s : State) (i : Instr) : (s.after i).pending = s.pending := rfl

/-- Every operation completes, and leaves exactly the state of `State.after` (R102). -/
theorem exec_eq_after (i : Instr) (s : State) : exec i s = .next (s.after i) := by
  cases i with
  | rdIn | rdOut | rdDir | wrOut | wrDir | wrBad | save => rfl
  | rdBad off sz => exact exec_rdBad off sz s
  | wrIn w => simp [exec_wrIn, State.after, valueAfter, directionAfter, eventsOf]
  | stim pin lvl =>
    obtain ⟨hp, he⟩ | ⟨hp, hd, he⟩ | ⟨hp, hd, he⟩ := exec_stim_cases pin lvl s
    · simp [he, State.after, valueAfter, directionAfter, eventsOf, hp, hp.not_gt, State.raiseDiag, State.emit]
    · simp [he, State.after, valueAfter, directionAfter, eventsOf, hp, hp.not_ge, hd, State.setValue]
    · simp [he, State.after, valueAfter, directionAfter, eventsOf, hp.not_ge, hd]
  | reset => simp [exec_reset, State.after, valueAfter, directionAfter, eventsOf, State.setValue, State.setDirection]
  | restore ver v d =>
    by_cases h : ver = 1#8
    · subst h
      simp [exec_restore_known, State.after, valueAfter, directionAfter, eventsOf, State.setValue, State.setDirection]
    · simp [exec_restore_unknown v d s h, State.after, valueAfter, directionAfter, eventsOf, h, State.raiseDiag,
        State.emit]

/-- The state an operation answers with is the one of `State.after`. -/
theorem eq_after_of_exec {i : Instr} {s t : State} (h : exec i s = .next t) : t = s.after i :=
  (Host.Outcome.next.inj ((exec_eq_after i s).symm.trans h)).symm

/-- A step that answers has waited, or has left what an operation leaves once its request no longer waits. -/
theorem eq_self_or_after_of_step {s t : State} (h : step s = .next t) :
    t = s ∨ ∃ i rest, t = State.after { s with pending := rest } i := by
  obtain ⟨_, rfl⟩ | ⟨_, rest, i, _, _, he⟩ := step_cases h
  · exact .inl rfl
  · exact .inr ⟨i, rest, eq_after_of_exec he⟩

/-! ## Who writes the words (R27) -/

/-- `value` changes only by the operations R27 names. -/
theorem writer_of_valueAfter_ne {c : Config} {v d : Word} {i : Instr} (h : valueAfter c v d i ≠ v) :
    (∃ w, i = .wrOut w) ∨ (∃ pin lvl, i = .stim pin lvl ∧ pin < c.pinCount ∧ d.getLsbD pin = false) ∨
      i = .reset ∨ (∃ v' d', i = .restore 1#8 v' d') ∨ (c.dirToInputClears = true ∧ ∃ w, i = .wrDir w) := by
  cases i with
  | wrOut w => exact .inl ⟨w, rfl⟩
  | stim pin lvl =>
    have hin : pin < c.pinCount ∧ d.getLsbD pin = false := by
      by_contra hout
      exact h (if_neg hout)
    exact .inr (.inl ⟨pin, lvl, rfl, hin⟩)
  | reset => exact .inr (.inr (.inl rfl))
  | restore ver v' d' =>
    have hver : ver = 1#8 := by
      by_contra hver
      exact h (if_neg hver)
    exact .inr (.inr (.inr (.inl ⟨v', d', by rw [hver]⟩)))
  | wrDir w =>
    have hclears : c.dirToInputClears = true := by
      by_contra hclears
      exact h (if_neg hclears)
    exact .inr (.inr (.inr (.inr ⟨hclears, w, rfl⟩)))
  | rdIn | rdOut | rdDir | rdBad | wrIn | wrBad | save => exact absurd rfl h

/-- `direction` changes only by the operations R27 names. -/
theorem writer_of_directionAfter_ne {c : Config} {d : Word} {i : Instr} (h : directionAfter c d i ≠ d) :
    (∃ w, i = .wrDir w) ∨ i = .reset ∨ ∃ v' d', i = .restore 1#8 v' d' := by
  cases i with
  | wrDir w => exact .inl ⟨w, rfl⟩
  | reset => exact .inr (.inl rfl)
  | restore ver v' d' =>
    have hver : ver = 1#8 := by
      by_contra hver
      exact h (if_neg hver)
    exact .inr (.inr ⟨v', d', by rw [hver]⟩)
  | rdIn | rdOut | rdDir | rdBad | wrIn | wrOut | wrBad | stim | save => exact absurd rfl h

/-! ## The invariant (R18), bit by bit -/

/-- Masking clears every bit at or above `PIN_COUNT` (R6). -/
theorem maskPins_getLsbD_of_ge {c : Config} {k : Nat} (w : Word) (hc : c.pinCount ≤ 32) (hk : c.pinCount ≤ k) :
    (maskPins c w).getLsbD k = false := by
  simp [maskPins_getLsbD c w k hc, hk]

/-- No operation sets a `value` bit at or above `PIN_COUNT`. An `OUT` write needs the `direction` bit clear as well: it
writes where `direction` is 1. -/
theorem valueAfter_getLsbD_of_ge {c : Config} {v d : Word} {k : Nat} (i : Instr) (hc : c.pinCount ≤ 32)
    (hk : c.pinCount ≤ k) (hv : v.getLsbD k = false) (hd : d.getLsbD k = false) :
    (valueAfter c v d i).getLsbD k = false := by
  cases i with
  | wrOut w => simp [valueAfter, maskedWrite_getLsbD, hd, hv]
  | wrDir w => simp [valueAfter, valueAfterDir_getLsbD, hv]
  | stim pin lvl =>
    simp only [valueAfter]
    split
    · next hin => rw [setBit_getLsbD v pin k lvl (by omega), if_neg (by omega), hv]
    · exact hv
  | reset => simp [valueAfter]
  | restore ver v' d' =>
    simp only [valueAfter]
    split
    · exact maskPins_getLsbD_of_ge v' hc hk
    · exact hv
  | rdIn | rdOut | rdDir | rdBad | wrIn | wrBad | save => exact hv

/-- No operation sets a `direction` bit at or above `PIN_COUNT`. -/
theorem directionAfter_getLsbD_of_ge {c : Config} {d : Word} {k : Nat} (i : Instr) (hc : c.pinCount ≤ 32)
    (hk : c.pinCount ≤ k) (hd : d.getLsbD k = false) : (directionAfter c d i).getLsbD k = false := by
  cases i with
  | wrDir w => exact maskPins_getLsbD_of_ge w hc hk
  | reset => simp [directionAfter]
  | restore ver v' d' =>
    simp only [directionAfter]
    split
    · exact maskPins_getLsbD_of_ge d' hc hk
    · exact hd
  | rdIn | rdOut | rdDir | rdBad | wrIn | wrOut | wrBad | stim | save => exact hd

/-- Every operation keeps the invariant. -/
theorem State.Inv.after {s : State} (h : s.Inv) (i : Instr) : (s.after i).Inv := by
  obtain ⟨hcfg, hv, hd⟩ := (State.inv_iff s).mp h
  have hc : s.cfg.pinCount ≤ 32 := (pinCount_le_of_configOk hcfg).2
  exact (State.inv_iff _).mpr ⟨hcfg,
    fun k hk => valueAfter_getLsbD_of_ge i hc hk (hv k hk) (hd k hk),
    fun k hk => directionAfter_getLsbD_of_ge i hc hk (hd k hk)⟩

/-- The invariant says nothing of the waiting requests. -/
theorem State.Inv.withPending {s : State} (h : s.Inv) (p : List Delivery) : State.Inv { s with pending := p } := h

/-- What is constructed from a legal configuration meets the invariant (R118, R119). -/
theorem freshInstance_inv {c : Config} (h : configOk c = true) : (freshInstance c).Inv :=
  ⟨h, BitVec.zero_and, BitVec.zero_and⟩

/-- Construction answers only from a legal configuration, and with the fresh state of it (R118, R119). -/
theorem construct_cases {c : Config} {t : State} (h : construct c = .next t) :
    configOk c = true ∧ t = freshInstance c := by
  unfold construct at h
  split at h
  · cases h
  · next hp =>
    split at h
    · cases h
    · next hb => exact ⟨by simp_all [configOk], (Host.Outcome.next.inj h).symm⟩

/-! ## The request of a bus write (R53, R59) -/

/-- A format-B write request decodes to the write at its offset and width. -/
theorem decode_formatB_write (sz : Width) (off : BitVec 8) (w : Word) :
    decode ⟨formatB 0b001#3 sz off, [w]⟩ = .ok (writeAt off sz w) := by
  simp [decode, formatB_cls, formatB_reserved, formatB_off, formatB_sz, withOneOperand]

/-! ## The statements -/

/-- Settles O19: a fresh state is all zero, and a step waits or runs one operation, which keeps the invariant. -/
theorem stepKeepsInvariant : Obligations.StepKeepsInvariant := by
  refine ⟨fun c t h => ?_, fun s t hs h => ?_⟩
  · obtain ⟨hc, rfl⟩ := construct_cases h
    exact freshInstance_inv hc
  · obtain rfl | ⟨i, rest, rfl⟩ := eq_self_or_after_of_step h
    · exact hs
    · exact (hs.withPending rest).after i

/-- Settles O20: neither waiting nor an operation writes the configuration. -/
theorem stepKeepsConfiguration : Obligations.StepKeepsConfiguration := by
  intro s t h
  obtain rfl | ⟨i, rest, rfl⟩ := eq_self_or_after_of_step h
  · rfl
  · rw [State.after_cfg]

/-- Settles O21: words and events after an operation are functions of the configuration and the words before it. -/
theorem operationsIgnoreTraceAndWaitingRequests : Obligations.OperationsIgnoreTraceAndWaitingRequests := by
  intro i s t h
  obtain rfl := eq_after_of_exec h
  refine ⟨eventsOf s.cfg s.value s.direction i, State.after_trace s i, fun tr p => ?_⟩
  rw [exec_eq_after]
  rfl

/-- Settles O38: the two words after an operation are `valueAfter` and `directionAfter`. -/
theorem onlyTheNamedOperationsWriteTheWords : Obligations.OnlyTheNamedOperationsWriteTheWords := by
  intro i s t h
  obtain rfl := eq_after_of_exec h
  exact ⟨writer_of_valueAfter_ne, writer_of_directionAfter_ne⟩

/-- Settles O2: the reset state is the fresh state of the standard configuration. -/
theorem resetStateMeetsInvariant : Obligations.ResetStateMeetsInvariant :=
  freshInstance_inv (c := Config.standard) (by decide)

/-- Settles O30: the descriptor 0x3000 with one operand word is the write at offset 0x00, `WR_IN`, and `WR_IN` leaves
the whole state. -/
theorem writeToInDoesNothing : Obligations.WriteToInDoesNothing := by
  refine ⟨fun w => ?_, exec_wrIn⟩
  have hdesc : 0x3000#16 = formatB 0b001#3 .b4 0x00#8 := by decide
  rw [hdesc, decode_formatB_write]
  simp [writeAt]

end Sys2Proof.Machine
end

section
/-! The memory statements (20_memory.md): which accesses select a register (R32, R36, R37), the order of the checks
(R106), the window in the address map (R31), the serialized run (R42, R44) and several controllers (R49). -/

namespace Sys2Proof.Machine

/-! ## The accesses that select a register (R32, R36) -/

/-- The two low offset bits are clear exactly when the offset is a multiple of 4 (R36). -/
theorem lowBits_eq_zero_iff (off : BitVec 8) : off.extractLsb' 0 2 = 0#2 ↔ off.toNat % 4 = 0 := by
  simp [← BitVec.toNat_inj]

/-- A register is selected by the accesses that pass the checks of R36 and lie at a register's offset. -/
theorem selectsRegister_iff (off : BitVec 8) (sz : Width) :
    selectsRegister off sz = true ↔ accessOk off sz = true ∧ (off = 0x00#8 ∨ off = 0x04#8 ∨ off = 0x08#8) := by
  have halign : off = 0x00#8 ∨ off = 0x04#8 ∨ off = 0x08#8 → off.extractLsb' 0 2 = 0#2 := by
    rintro (rfl | rfl | rfl) <;> decide
  cases sz with
  | b1 | b2 | b8 => simp [selectsRegister, accessOk, Width.bytes]
  | b4 => simpa [selectsRegister, accessOk, Width.bytes, or_assoc] using halign

/-- The registers lie at the multiples of 4 below 0x0C (R32). -/
theorem offset_of_register_iff (off : BitVec 8) :
    (off = 0x00#8 ∨ off = 0x04#8 ∨ off = 0x08#8) ↔ off.toNat % 4 = 0 ∧ off.toNat < 0x0C := by
  simp only [← BitVec.toNat_inj, BitVec.toNat_ofNat]
  omega

/-- A register is selected exactly when no check fails, in their order width, alignment, offset (R106). -/
theorem selectsRegister_iff_checks (off : BitVec 8) (sz : Width) :
    selectsRegister off sz = true ↔ sz.bytes = 4 ∧ off.toNat % 4 = 0 ∧ off.toNat < 0x0C := by
  rw [selectsRegister_iff, offset_of_register_iff, accessOk, Bool.and_eq_true, beq_iff_eq, beq_iff_eq,
    lowBits_eq_zero_iff]
  tauto

/-- A read is `RD_BAD` exactly when it selects no register (R59). -/
theorem readAt_eq_rdBad_iff (off : BitVec 8) (sz : Width) :
    readAt off sz = .rdBad off sz ↔ selectsRegister off sz = false := by
  refine ⟨fun h => ?_, readAt_of_not_selects⟩
  obtain ⟨_, _, hr⟩ | ⟨_, _, hr⟩ | ⟨_, _, hr⟩ | ⟨hs, _⟩ := readAt_cases off sz
  · cases hr.symm.trans h
  · cases hr.symm.trans h
  · cases hr.symm.trans h
  · exact hs

/-- A write is `WR_BAD` exactly when it selects no register (R59). -/
theorem writeAt_eq_wrBad_iff (off : BitVec 8) (sz : Width) (w : Word) :
    writeAt off sz w = .wrBad off sz w ↔ selectsRegister off sz = false := by
  refine ⟨fun h => ?_, writeAt_of_not_selects w⟩
  obtain ⟨_, _, hr⟩ | ⟨_, _, hr⟩ | ⟨_, _, hr⟩ | ⟨hs, _⟩ := writeAt_cases off sz w
  · cases hr.symm.trans h
  · cases hr.symm.trans h
  · cases hr.symm.trans h
  · exact hs

/-! ## Each format decodes to what it encodes (R53, R55 to R57) -/

/-- A format-B read request decodes to the read at its offset and width. -/
theorem decode_formatB_read (sz : Width) (off : BitVec 8) :
    decode ⟨formatB 0b000#3 sz off, []⟩ = .ok (readAt off sz) := by
  simp [decode, formatB_cls, formatB_reserved, formatB_off, formatB_sz, withoutOperands]

/-- A format-S request decodes to the stimulus of its pin and level. -/
theorem decode_formatS (lvl : Bool) (pin : BitVec 6) :
    decode ⟨formatS lvl pin, []⟩ = .ok (.stim pin.toNat lvl) := by
  simp [decode, formatS_cls, formatS_reserved, formatS_pin, formatS_lvl, withoutOperands]

/-- A format-R request decodes to the restore of its version and its two operand words. -/
theorem decode_formatR (ver : BitVec 8) (v d : Word) :
    decode ⟨formatR ver, [v, d]⟩ = .ok (.restore ver v d) := by
  simp [decode, formatR_cls, formatR_reserved, formatR_ver, withTwoOperands]

/-- The decoder reads back the request of every well-formed operation. -/
theorem decode_encode {i : Instr} (h : i.wf = true) : decode (encode i) = .ok i := by
  cases i with
  | rdIn | rdOut | rdDir => exact decode_formatB_read .b4 _
  | rdBad off sz =>
    have hs : selectsRegister off sz = false := by simpa [Instr.wf] using h
    rw [encode, decode_formatB_read, readAt_of_not_selects hs]
  | wrIn w | wrOut w | wrDir w => exact decode_formatB_write .b4 _ w
  | wrBad off sz w =>
    have hs : selectsRegister off sz = false := by simpa [Instr.wf] using h
    rw [encode, decode_formatB_write, writeAt_of_not_selects w hs]
  | stim pin lvl =>
    have hpin : pin < 64 := by simpa [Instr.wf] using h
    rw [encode, decode_formatS, BitVec.toNat_ofNat, Nat.mod_eq_of_lt hpin]
  | reset | save => rfl
  | restore ver v d => exact decode_formatR ver v d

/-! ## The diagnostic of an access (R106) -/

/-- The diagnostic of an invalid read, with the alignment check as arithmetic on the offset (R70, R106). -/
theorem readDiag_eq (off : BitVec 8) (sz : Width) :
    readDiag off sz =
      if sz.bytes ≠ 4 then .rdBadSize else if off.toNat % 4 ≠ 0 then .rdMisaligned else .rdBadOffset := by
  simp only [readDiag, ne_eq, lowBits_eq_zero_iff]

/-- The diagnostic of an invalid write, likewise (R77, R106). -/
theorem writeDiag_eq (off : BitVec 8) (sz : Width) :
    writeDiag off sz =
      if sz.bytes ≠ 4 then .wrBadSize else if off.toNat % 4 ≠ 0 then .wrMisaligned else .wrBadOffset := by
  simp only [writeDiag, ne_eq, lowBits_eq_zero_iff]

/-- A read that fails a check emits its diagnostic, then the word 0 (R70). -/
theorem eventsOf_invalid_read {off : BitVec 8} {sz : Width} (c : Config) (v d : Word)
    (h : selectsRegister off sz = false) :
    eventsOf c v d (readAt off sz) = [.diag (readDiag off sz), .readData 0#32] := by
  rw [readAt_of_not_selects h, eventsOf]

/-- A write that fails a check emits its diagnostic only (R77). -/
theorem eventsOf_invalid_write {off : BitVec 8} {sz : Width} (c : Config) (v d w : Word)
    (h : selectsRegister off sz = false) :
    eventsOf c v d (writeAt off sz w) = [.diag (writeDiag off sz)] := by
  rw [writeAt_of_not_selects w h, eventsOf]

/-- The events of an `OUT` write are notifications, none of them a diagnostic. -/
theorem edgeOut_diagFree (c : Config) (p n d : Word) : DiagFree (edgeOut c p n d) := by
  intro e he
  obtain ⟨i, -, -, -, -, rfl⟩ := (mem_edgeOut c p n d e).mp he
  rfl

/-- The events of a `DIR` write are notifications, none of them a diagnostic. -/
theorem edgeDir_diagFree (c : Config) (p n : Word) : DiagFree (edgeDir c p n) := by
  intro e he
  obtain ⟨i, -, -, -, rfl⟩ := (mem_edgeDir c p n e).mp he
  rfl

/-- A read of a register raises no diagnostic. -/
theorem eventsOf_valid_read_diagFree {off : BitVec 8} {sz : Width} (c : Config) (v d : Word)
    (h : selectsRegister off sz = true) : DiagFree (eventsOf c v d (readAt off sz)) := by
  obtain ⟨_, _, hr⟩ | ⟨_, _, hr⟩ | ⟨_, _, hr⟩ | ⟨hs, _⟩ := readAt_cases off sz
  · simp [hr, eventsOf, DiagFree, Event.isDiag]
  · simp [hr, eventsOf, DiagFree, Event.isDiag]
  · simp [hr, eventsOf, DiagFree, Event.isDiag]
  · simp [hs] at h

/-- A write of a register raises no diagnostic. -/
theorem eventsOf_valid_write_diagFree {off : BitVec 8} {sz : Width} (c : Config) (v d w : Word)
    (h : selectsRegister off sz = true) : DiagFree (eventsOf c v d (writeAt off sz w)) := by
  obtain ⟨_, _, hr⟩ | ⟨_, _, hr⟩ | ⟨_, _, hr⟩ | ⟨hs, _⟩ := writeAt_cases off sz w
  · simp [hr, eventsOf, DiagFree]
  · rw [hr]; exact edgeOut_diagFree _ _ _ _
  · rw [hr]; exact edgeDir_diagFree _ _ _
  · simp [hs] at h

/-! ## The window (R31) -/

/-- The address of a window offset is in the window, at that offset. -/
theorem windowOffset_base_add (c : Config) (off : BitVec 8) : windowOffset c (c.gpioBase + off.toNat) = some off := by
  have hoff : off.toNat < windowSize := off.isLt
  rw [windowOffset, if_pos ⟨by omega, by omega⟩, Nat.add_sub_cancel_left, BitVec.ofNat_toNat, BitVec.setWidth_eq]

/-- An address below or above the window has no window offset. -/
theorem windowOffset_eq_none {c : Config} {a : Nat} (h : a < c.gpioBase ∨ c.gpioBase + 0x100 ≤ a) :
    windowOffset c a = none := by
  rw [windowOffset, if_neg]
  unfold windowSize
  omega

/-! ## One step and one run of the machine -/

/-- A step refuses an item that is not accepted, for the reason it is not (R117). -/
theorem step_of_accept_error {s : State} {d : Delivery} {rest : List Delivery} {r : Refusal}
    (hp : s.pending = d :: rest) (ha : accept d = .error r) : step s = .refused r := by
  rw [step, fetch_of_pending hp, ha]

/-- A step takes the request of a well-formed operation and leaves what that operation leaves. -/
theorem step_of_pending_encode {s : State} {i : Instr} {rest : List Delivery} (hi : i.wf = true)
    (hp : s.pending = .request (encode i) :: rest) : step s = .next (State.after { s with pending := rest } i) := by
  rw [step_of_accept_ok hp (accept_request_of_decode (decode_encode hi)), exec_eq_after]

/-- Everything a step of one controller among several can do: nothing at a position that names none, and else the
controller's own step, its next state put in its place (R49). -/
theorem stepInstance_cases {k : Nat} {sys sys' : List State} (h : stepInstance k sys = .next sys') :
    (sys[k]? = none ∧ sys' = sys) ∨ ∃ s t, sys[k]? = some s ∧ step s = .next t ∧ sys' = sys.set k t := by
  unfold stepInstance at h
  split at h
  · next hk => exact .inl ⟨hk, (Host.Outcome.next.inj h).symm⟩
  · next s hk =>
    split at h
    · next t ht => exact .inr ⟨s, t, hk, ht, (Host.Outcome.next.inj h).symm⟩
    · cases h
    · cases h

/-! ## The statements -/

/-- Settles O11: the request decodes to the access it encodes, and that is the invalid one exactly when no register is
selected. -/
theorem onlyAlignedWordAccessesSelectRegisters : Obligations.OnlyAlignedWordAccessesSelectRegisters := by
  intro off sz w
  rw [decode_formatB_read, decode_formatB_write, Except.ok.injEq, Except.ok.injEq, readAt_eq_rdBad_iff,
    writeAt_eq_wrBad_iff, ← selectsRegister_iff, Bool.not_eq_true]
  exact ⟨Iff.rfl, Iff.rfl⟩

/-- Settles O22, by induction on the operations: each step takes the request of the oldest, and an operation's effect
does not depend on the requests still waiting. -/
theorem serializedRunIsTheOperationsInOrder : Obligations.SerializedRunIsTheOperationsInOrder := by
  intro ops
  induction ops with
  | nil =>
    intro s _ hp
    rw [List.map_nil] at hp
    rw [← hp]
    rfl
  | cons i ops ih =>
    intro s hwf hp
    have hi : i.wf = true := hwf i List.mem_cons_self
    have hops : ∀ j ∈ ops, j.wf = true := fun j hj => hwf j (List.mem_cons_of_mem i hj)
    rw [List.length_cons, core_run_succ (step_of_pending_encode hi hp), runAll_cons_of_next (exec_eq_after i _)]
    exact ih _ hops rfl

/-- Settles O23: the step of a controller writes its own position of the list only. -/
theorem instancesAreIndependent : Obligations.InstancesAreIndependent := by
  intro k sys sys' h
  obtain ⟨hk, rfl⟩ | ⟨s, t, hk, ht, rfl⟩ := stepInstance_cases h
  · refine ⟨rfl, fun _ _ => rfl, fun s hs => ?_⟩
    cases hk.symm.trans hs
  · have hlt : k < sys.length := (List.getElem?_eq_some_iff.mp hk).1
    refine ⟨List.length_set, fun j hj => List.getElem?_set_ne hj.symm, fun s' hs' => ?_⟩
    obtain rfl : s = s' := Option.some.inj (hk.symm.trans hs')
    exact ⟨t, ht, List.getElem?_set_self hlt⟩

/-- Settles O37: an access that fails a check selects no register, and raises the diagnostic of the first check it
fails. -/
theorem busChecksRunInOrder : Obligations.BusChecksRunInOrder := by
  intro off sz w s
  have hinvalid (h : ¬(sz.bytes = 4 ∧ off.toNat % 4 = 0 ∧ off.toNat < 0x0C)) : selectsRegister off sz = false := by
    rwa [← selectsRegister_iff_checks, Bool.not_eq_true] at h
  refine ⟨s.after (readAt off sz), s.after (writeAt off sz w), _, _, exec_eq_after _ s, State.after_trace s _,
    exec_eq_after _ s, State.after_trace s _, fun hw => ?_, fun hw ha => ?_, fun hw ha ho => ?_, fun hw ha ho => ?_⟩
  · have hs := hinvalid fun ⟨hwidth, _⟩ => hw hwidth
    simp [eventsOf_invalid_read _ _ _ hs, eventsOf_invalid_write _ _ _ _ hs, readDiag_eq, writeDiag_eq, hw]
  · have hs := hinvalid fun ⟨_, haligned, _⟩ => ha haligned
    simp [eventsOf_invalid_read _ _ _ hs, eventsOf_invalid_write _ _ _ _ hs, readDiag_eq, writeDiag_eq, hw, ha]
  · have hs := hinvalid fun ⟨_, _, hlt⟩ => hlt.not_ge ho
    simp [eventsOf_invalid_read _ _ _ hs, eventsOf_invalid_write _ _ _ _ hs, readDiag_eq, writeDiag_eq, hw, ha]
  · have hs := (selectsRegister_iff_checks off sz).mpr ⟨hw, ha, ho⟩
    exact ⟨eventsOf_valid_read_diagFree _ _ _ hs, eventsOf_valid_write_diagFree _ _ _ _ hs⟩

/-- Settles O57: the access is delivered as the request of its window offset, and outside the window there is none. -/
theorem busAccessesReachTheWindowOnly : Obligations.BusAccessesReachTheWindowOnly := by
  refine fun s a sz w => ⟨?_, fun hout => ?_⟩
  · rintro off rfl
    rw [busRead, busWrite, windowOffset_base_add]
    exact ⟨rfl, rfl⟩
  · rw [busRead, busWrite, windowOffset_eq_none hout]
    exact ⟨rfl, rfl⟩

/-- Settles O16: the block accepts none of the three items. -/
theorem unserializedItemsHaveNoStep : Obligations.UnserializedItemsHaveNoStep :=
  fun _ _ _ _ => ⟨fun hp => step_of_accept_error hp rfl, fun hp => step_of_accept_error hp rfl,
    fun hp => step_of_accept_error hp rfl⟩

end Sys2Proof.Machine
end

section
/-! The bus-read statements (40_bus_read.md): the word each valid read returns (R67 to R69), reads that follow one
another (R71), and the bits no pin uses (R72). -/

namespace Sys2Proof.Machine

/-! ## The bits at or above `PIN_COUNT` (R18) -/

/-- Under the invariant `value` has no bit at or above `PIN_COUNT`. -/
theorem State.Inv.value_getLsbD_of_ge {s : State} (h : s.Inv) {k : Nat} (hk : s.cfg.pinCount ≤ k) :
    s.value.getLsbD k = false := by
  obtain ⟨_, hv, _⟩ := (State.inv_iff s).mp h
  exact hv k hk

/-- Under the invariant `direction` has no bit at or above `PIN_COUNT`. -/
theorem State.Inv.direction_getLsbD_of_ge {s : State} (h : s.Inv) {k : Nat} (hk : s.cfg.pinCount ≤ k) :
    s.direction.getLsbD k = false := by
  obtain ⟨_, _, hd⟩ := (State.inv_iff s).mp h
  exact hd k hk

/-- A word in which only bit 0 can be 1 is 0 or 1. -/
theorem eq_zero_or_one_of_getLsbD {w : Word} (h : ∀ k, 1 ≤ k → w.getLsbD k = false) : w = 0#32 ∨ w = 1#32 := by
  have hlow : w = (BitVec.ofBool (w.getLsbD 0)).setWidth 32 := by
    apply BitVec.eq_of_getLsbD_eq
    intro k _
    rcases k with _ | k
    · simp
    · simp [h (k + 1) (by omega)]
  rw [hlow]
  cases w.getLsbD 0
  · exact .inl rfl
  · exact .inr rfl

/-! ## Runs of operations (R42, R71) -/

/-- Two operations in order leave what the second leaves after the first. -/
theorem runAll_pair (i j : Instr) (s : State) : runAll [i, j] s = .next ((s.after i).after j) := by
  rw [runAll_cons_of_next (exec_eq_after i s), runAll_cons_of_next (exec_eq_after j _), runAll]

/-- A read, valid or not, only emits (R67 to R70). -/
theorem State.after_of_isRead {i : Instr} (h : isRead i = true) (s : State) :
    s.after i = s.emit (eventsOf s.cfg s.value s.direction i) := by
  cases i with
  | rdIn | rdOut | rdDir | rdBad => rfl
  | wrIn | wrOut | wrDir | wrBad | stim | reset | save | restore => cases h

/-- Reads in a row emit, one after the other, what each emits in the first state (R71). -/
theorem runAll_reads {ops : List Instr} (h : ∀ i ∈ ops, isRead i = true) (s : State) :
    runAll ops s = .next (s.emit (ops.map (eventsOf s.cfg s.value s.direction)).flatten) := by
  induction ops generalizing s with
  | nil => rw [List.map_nil, List.flatten_nil, State.emit_nil, runAll]
  | cons i ops ih =>
    rw [List.forall_mem_cons] at h
    obtain ⟨hi, hops⟩ := h
    rw [runAll_cons_of_next (exec_eq_after i s), State.after_of_isRead hi, ih hops, State.emit_emit]
    simp

/-! ## The statements -/

/-- Settles O28: the reads emit what each emits in the first state, and emitting moves the trace only. -/
theorem readsRepeat : Obligations.ReadsRepeat := by
  intro ops s hreads
  refine ⟨_, runAll_reads hreads s, rfl, rfl, rfl, ops.map (eventsOf s.cfg s.value s.direction), rfl, ?_⟩
  rw [List.forall₂_map_right_iff, List.forall₂_same]
  exact fun i _ => ⟨s.after i, exec_eq_after i s, State.after_trace s i⟩

/-- Settles O25: the word read after an `OUT` write is the masked write of R75, whose bits `maskedWrite_getLsbD`
gives. -/
theorem readOfOutReturnsValueNotTheWrittenWord : Obligations.ReadOfOutReturnsValueNotTheWrittenWord := by
  refine ⟨decode_encode (i := .rdOut) rfl, exec_rdOut, fun s hs k hk => hs.value_getLsbD_of_ge hk, fun s w => ?_⟩
  exact ⟨_, _, runAll_pair _ _ s, List.getLast?_concat, maskedWrite_getLsbD s.value s.direction w⟩

/-- Settles O26: the word read after a `DIR` write is the written word masked by `PIN_MASK`. -/
theorem readOfDirReturnsDirection : Obligations.ReadOfDirReturnsDirection := by
  refine ⟨decode_encode (i := .rdDir) rfl, exec_rdDir, fun s hs k hk => hs.direction_getLsbD_of_ge hk,
    fun s w hc => ?_⟩
  exact ⟨_, _, runAll_pair _ _ s, List.getLast?_concat, fun k => maskPins_getLsbD s.cfg w k hc⟩

/-- Settles O29: a valid read returns `value` or `direction`, and neither has a bit at or above `PIN_COUNT`. -/
theorem validReadsShowNoUnusedPin : Obligations.ValidReadsShowNoUnusedPin := by
  intro s i hs hi
  have honePin {w : Word} (hw : ∀ k, s.cfg.pinCount ≤ k → w.getLsbD k = false) (h1 : s.cfg.pinCount = 1) :
      w = 0#32 ∨ w = 1#32 := eq_zero_or_one_of_getLsbD (h1 ▸ hw)
  have hvalue := fun k (hk : s.cfg.pinCount ≤ k) => hs.value_getLsbD_of_ge hk
  have hdirection := fun k (hk : s.cfg.pinCount ≤ k) => hs.direction_getLsbD_of_ge hk
  obtain rfl | rfl | rfl := hi
  · exact ⟨_, s.value, exec_rdIn s, rfl, hvalue, honePin hvalue⟩
  · exact ⟨_, s.value, exec_rdOut s, rfl, hvalue, honePin hvalue⟩
  · exact ⟨_, s.direction, exec_rdDir s, rfl, hdirection, honePin hdirection⟩

/-- Settles O24: `RD_IN` and `RD_OUT` have the same meaning, and `value` has no bit at or above `PIN_COUNT`. -/
theorem readOfInReturnsValue : Obligations.ReadOfInReturnsValue :=
  ⟨decode_encode (i := .rdIn) rfl,
    fun s => ⟨exec_rdIn s, (exec_rdIn s).trans (exec_rdOut s).symm, fun hs _ hk => hs.value_getLsbD_of_ge hk⟩⟩

end Sys2Proof.Machine
end

section
/-! The bus-write statements (41_bus_write.md): what an `OUT` write sets (R75), the laws of the write rules (R79) and
repeated writes (R39). Each write that changes nothing is one of two cases: an `OUT` write whose word agrees with `value`
on the output pins, and a `DIR` write whose masked word is `direction`. -/

namespace Sys2Proof.Machine

/-! ## The written words -/

/-- An `OUT` write depends on its word only at the output pins (R75). -/
theorem maskedWrite_congr {v d w w' : Word} (h : w &&& d = w' &&& d) : maskedWrite v d w = maskedWrite v d w' := by
  rw [maskedWrite, maskedWrite, h]

/-- An `OUT` write of the word `value` already holds keeps it. -/
theorem maskedWrite_self (v d : Word) : maskedWrite v d v = v := by
  apply BitVec.eq_of_getLsbD_eq
  intro i _
  rw [maskedWrite_getLsbD, ite_self]

/-- An `OUT` write keeps `value` where the word agrees with it on the output pins. -/
theorem maskedWrite_eq_self {v d w : Word} (h : w &&& d = v &&& d) : maskedWrite v d w = v :=
  (maskedWrite_congr h).trans (maskedWrite_self v d)

/-- A `DIR` write of the direction already there clears no `value` bit, in either reading of I1. -/
theorem valueAfterDir_same (c : Config) (v d : Word) : valueAfterDir c v d d = v := by
  apply BitVec.eq_of_getLsbD_eq
  intro i _
  rw [valueAfterDir_getLsbD]
  cases d.getLsbD i <;> simp

/-- Under the invariant `direction` has no bit for `PIN_MASK` to drop (R18). -/
theorem State.Inv.maskPins_direction {s : State} (h : s.Inv) : maskPins s.cfg s.direction = s.direction := by
  obtain ⟨hcfg, _, hd⟩ := (State.inv_iff s).mp h
  exact maskPins_eq_self (pinCount_le_of_configOk hcfg).2 hd

/-- Under the invariant the word's bits at or above `PIN_COUNT` reach no output pin. -/
theorem State.Inv.maskPins_and_direction {s : State} (h : s.Inv) (w : Word) :
    maskPins s.cfg w &&& s.direction = w &&& s.direction := by
  have hmask : pinMask s.cfg &&& s.direction = s.direction := (BitVec.and_comm _ _).trans h.maskPins_direction
  rw [maskPins, BitVec.and_assoc, hmask]

/-! ## The writes that leave the whole state, trace included -/

/-- An `OUT` write leaves the state it is made in where its word agrees with `value` on the output pins. -/
theorem State.after_wrOut_eq_self {s : State} {w : Word} (h : w &&& s.direction = s.value &&& s.direction) :
    s.after (.wrOut w) = s := by
  simp [State.after, valueAfter, directionAfter, eventsOf, maskedWrite_eq_self h]

/-- A `DIR` write leaves the state it is made in where its masked word is `direction`. -/
theorem State.after_wrDir_eq_self {s : State} {w : Word} (h : maskPins s.cfg w = s.direction) :
    s.after (.wrDir w) = s := by
  simp [State.after, valueAfter, directionAfter, eventsOf, h, valueAfterDir_same]

/-- Two `OUT` words that agree on the output pins leave the same state. -/
theorem State.after_wrOut_congr {s : State} {w w' : Word} (h : w &&& s.direction = w' &&& s.direction) :
    s.after (.wrOut w) = s.after (.wrOut w') := by
  simp only [State.after, valueAfter, directionAfter, eventsOf, maskedWrite_congr h]

/-- Repeating an `OUT` write changes and emits nothing: on the output pins `value` is the written word already. -/
theorem State.after_wrOut_repeat (s : State) (w : Word) : (s.after (.wrOut w)).after (.wrOut w) = s.after (.wrOut w) :=
  State.after_wrOut_eq_self (maskedWrite_and_direction s.value s.direction w).symm

/-- Repeating a `DIR` write changes and emits nothing: `direction` is the masked word already. -/
theorem State.after_wrDir_repeat (s : State) (w : Word) : (s.after (.wrDir w)).after (.wrDir w) = s.after (.wrDir w) :=
  State.after_wrDir_eq_self rfl

/-! ## The statements -/

/-- Settles O36: each second write is made in the state that the first one left. -/
theorem repeatedWriteChangesAndEmitsNothing : Obligations.RepeatedWriteChangesAndEmitsNothing := by
  intro w s
  refine ⟨s.after (.wrOut w), s.after (.wrDir w), exec_eq_after _ s, ?_, exec_eq_after _ s, ?_⟩
  · rw [exec_eq_after, State.after_wrOut_repeat]
  · rw [exec_eq_after, State.after_wrDir_repeat]

/-- Settles O34: the laws of the two written words, and for the last two the writes that leave the whole state. -/
theorem writeLaws : Obligations.WriteLaws := by
  intro w s
  refine ⟨s.after (.wrOut w), s.after (.wrDir w), exec_eq_after _ s, exec_eq_after _ s, rfl, fun hkeeps => ?_,
    maskedWrite_and_direction _ _ w, maskedWrite_and_not_direction _ _ w, rfl, fun hw => ?_, fun hw hs => ?_⟩
  · simp [valueAfter, valueAfterDir, hkeeps]
  · exact State.after_wrOut_eq_self (by rw [hw])
  · exact State.after_wrDir_eq_self (by rw [hw, hs.maskPins_direction])

/-- Settles O31: the bits of the masked write (R75), the word's bits that no output pin takes, and the two corner cases
in which the word agrees with `value` on the output pins. -/
theorem outWriteSetsOutputPinsOnly : Obligations.OutWriteSetsOutputPinsOnly := by
  refine ⟨fun w => decode_encode (i := .wrOut w) rfl, fun w s => ?_⟩
  refine ⟨s.after (.wrOut w), exec_eq_after _ s, rfl, maskedWrite_getLsbD s.value s.direction w, rfl, rfl, rfl, rfl,
    fun hs => ?_, fun hcorner => State.after_wrOut_eq_self ?_⟩
  · exact (exec_eq_after _ s).trans (congrArg _ (State.after_wrOut_congr (hs.maskPins_and_direction w)))
  · obtain hd | hw := hcorner
    · rw [hd, BitVec.and_zero, BitVec.and_zero]
    · rw [hw]

end Sys2Proof.Machine
end

section
/-! The line-propagation statements (42_line_propagation.md): which pins a write notifies and in which order (R80 to
R84), who notifies (R92), the bounds on an operation's events (R93), and input stimulus (R85 to R89). -/

namespace Sys2Proof.Machine

/-! ## The changed pins -/

/-- Only a pin below 32 has a bit to change, whatever `PIN_COUNT` is. -/
theorem changedPins_length_le_32 (c : Config) (w : Word) : (changedPins c w).length ≤ 32 := by
  have hnodup : (changedPins c w).Nodup := (changedPins_ascending c w).imp Nat.ne_of_lt
  have hsub : changedPins c w ⊆ List.range 32 := by
    intro i hi
    obtain ⟨-, hbit⟩ := (mem_changedPins c w i).mp hi
    exact List.mem_range.mpr (BitVec.lt_of_getLsbD hbit)
  simpa using (hnodup.subperm hsub).length_le

/-- The pins an `OUT` write notifies are in ascending order, each once (R80). -/
theorem edgeOut_pins_ascending (c : Config) (p n d : Word) :
    ((edgeOut c p n d).filterMap Event.notifiedPin).Pairwise (· < ·) := by
  rw [edgeOut_pins]
  exact (changedPins_ascending c _).filter _

/-- The pins a `DIR` write notifies are in ascending order, each once (R81). -/
theorem edgeDir_pins_ascending (c : Config) (p n : Word) :
    ((edgeDir c p n).filterMap Event.notifiedPin).Pairwise (· < ·) := by
  rw [edgeDir_pins]
  exact (changedPins_ascending c _).filter _

/-! ## The kinds of event -/

/-- An event that notifies no pin is neither of the two notifications. -/
theorem Event.not_notify_of_notifiedPin_eq_none {e : Event} (h : e.notifiedPin = none) :
    e.isOutNotify = false ∧ e.isDirNotify = false := by
  cases e with
  | outNotify | dirNotify => cases h
  | readData | diag | snapshotData => exact ⟨rfl, rfl⟩

/-- An `OUT` write emits `OutNotify` only. -/
theorem eq_outNotify_of_mem_edgeOut {c : Config} {p n d : Word} {e : Event} (h : e ∈ edgeOut c p n d) :
    ∃ i b, e = .outNotify i b := by
  obtain ⟨i, -, -, -, -, he⟩ := (mem_edgeOut c p n d e).mp h
  exact ⟨i, _, he⟩

/-- A `DIR` write emits `DirNotify` only. -/
theorem eq_dirNotify_of_mem_edgeDir {c : Config} {p n : Word} {e : Event} (h : e ∈ edgeDir c p n) :
    ∃ i b, e = .dirNotify i b := by
  obtain ⟨i, -, -, -, he⟩ := (mem_edgeDir c p n e).mp h
  exact ⟨i, _, he⟩

/-- Each event of an `OUT` write notifies a pin. -/
theorem edgeOut_length_eq (c : Config) (p n d : Word) :
    (edgeOut c p n d).length = ((edgeOut c p n d).filterMap Event.notifiedPin).length := by
  refine (List.filterMap_length_eq_length.mpr fun e he => ?_).symm
  obtain ⟨i, b, rfl⟩ := eq_outNotify_of_mem_edgeOut he
  rfl

/-- Each event of a `DIR` write notifies a pin. -/
theorem edgeDir_length_eq (c : Config) (p n : Word) :
    (edgeDir c p n).length = ((edgeDir c p n).filterMap Event.notifiedPin).length := by
  refine (List.filterMap_length_eq_length.mpr fun e he => ?_).symm
  obtain ⟨i, b, rfl⟩ := eq_dirNotify_of_mem_edgeDir he
  rfl

/-! ## The events of one operation -/

/-- No operation but an `OUT` or a `DIR` write notifies a pin (R92). -/
theorem notifiedPin_of_mem_eventsOf {c : Config} {v d : Word} {i : Instr} (hout : ∀ w, i ≠ .wrOut w)
    (hdir : ∀ w, i ≠ .wrDir w) {e : Event} (he : e ∈ eventsOf c v d i) : e.notifiedPin = none := by
  cases i with
  | wrOut w => exact absurd rfl (hout w)
  | wrDir w => exact absurd rfl (hdir w)
  | rdIn | rdOut | rdDir | wrBad | save =>
    obtain rfl := List.mem_singleton.mp he
    rfl
  | rdBad off sz =>
    obtain rfl | rfl : e = .diag (readDiag off sz) ∨ e = .readData 0#32 := by simpa [eventsOf] using he
    · rfl
    · rfl
  | stim pin lvl =>
    obtain ⟨-, rfl⟩ : c.pinCount ≤ pin ∧ e = .diag .stimPinRange := by simpa [eventsOf] using he
    rfl
  | restore ver v' d' =>
    obtain ⟨-, rfl⟩ : ver ≠ 1#8 ∧ e = .diag .restoreBadVersion := by simpa [eventsOf] using he
    rfl
  | wrIn | reset => cases he

/-- An operation notifies some of the pins below `PIN_COUNT` that change in one word, each at most once. -/
theorem notifiedPins_sublist_changedPins (c : Config) (v d : Word) (i : Instr) :
    ∃ w, ((eventsOf c v d i).filterMap Event.notifiedPin).Sublist (changedPins c w) := by
  by_cases hout : ∃ w, i = .wrOut w
  · obtain ⟨w, rfl⟩ := hout
    exact ⟨_, edgeOut_pins c v _ d ▸ List.filter_sublist⟩
  by_cases hdir : ∃ w, i = .wrDir w
  · obtain ⟨w, rfl⟩ := hdir
    exact ⟨_, edgeDir_pins c d _ ▸ List.filter_sublist⟩
  have hnone : (eventsOf c v d i).filterMap Event.notifiedPin = [] :=
    List.filterMap_eq_nil_iff.mpr fun e he =>
      notifiedPin_of_mem_eventsOf (not_exists.mp hout) (not_exists.mp hdir) he
  exact ⟨0#32, hnone ▸ List.nil_sublist _⟩

/-- A list without an event of some kind meets a bound of one on that kind. -/
theorem length_filter_le_one_of_forall {p : Event → Bool} {es : List Event} (h : ∀ e ∈ es, p e = false) :
    (es.filter p).length ≤ 1 := by
  have hnil : es.filter p = [] := List.filter_eq_nil_iff.mpr fun e he => by simp [h e he]
  simp [hnil]

/-- An operation emits at most one data event: a write's notifications carry none (R93). -/
theorem eventsOf_data_length_le (c : Config) (v d : Word) (i : Instr) :
    ((eventsOf c v d i).filter Event.isData).length ≤ 1 := by
  cases i with
  | wrOut w =>
    refine length_filter_le_one_of_forall fun e he => ?_
    obtain ⟨k, b, rfl⟩ := eq_outNotify_of_mem_edgeOut he
    rfl
  | wrDir w =>
    refine length_filter_le_one_of_forall fun e he => ?_
    obtain ⟨k, b, rfl⟩ := eq_dirNotify_of_mem_edgeDir he
    rfl
  | stim | restore => simp only [eventsOf]; split <;> simp [Event.isData]
  | rdIn | rdOut | rdDir | rdBad | wrIn | wrBad | reset | save => simp [eventsOf, List.filter_cons, Event.isData]

/-- An operation raises at most one diagnostic: a write's notifications are none (R93). -/
theorem eventsOf_diag_length_le (c : Config) (v d : Word) (i : Instr) :
    ((eventsOf c v d i).filter Event.isDiag).length ≤ 1 := by
  cases i with
  | wrOut w => exact length_filter_le_one_of_forall (edgeOut_diagFree _ _ _ _)
  | wrDir w => exact length_filter_le_one_of_forall (edgeDir_diagFree _ _ _)
  | stim | restore => simp only [eventsOf]; split <;> simp [List.filter_cons, Event.isDiag]
  | rdIn | rdOut | rdDir | rdBad | wrIn | wrBad | reset | save => simp [eventsOf, List.filter_cons, Event.isDiag]

/-! ## The statements -/

/-- Settles O18: the notified pins are among the changed ones of one word, of which there are at most `PIN_COUNT` and at
most 32. -/
theorem everyOperationFinishesWithinBounds : Obligations.EveryOperationFinishesWithinBounds := by
  intro i s
  obtain ⟨w, hsub⟩ := notifiedPins_sublist_changedPins s.cfg s.value s.direction i
  exact ⟨s.after i, _, exec_eq_after i s, rfl, rfl, State.after_trace s i,
    hsub.length_le.trans (changedPins_length_le s.cfg w), hsub.length_le.trans (changedPins_length_le_32 s.cfg w),
    eventsOf_data_length_le _ _ _ i, eventsOf_diag_length_le _ _ _ i⟩

/-- Settles O35: the events of an `OUT` write are those of `edgeOut`, those of a `DIR` write those of `edgeDir`. -/
theorem writesNotifyExactlyTheChangedPins : Obligations.WritesNotifyExactlyTheChangedPins := by
  refine ⟨fun w s => ?_, fun w s => ?_⟩
  · exact ⟨s.after (.wrOut w), _, exec_eq_after _ s, State.after_trace s _, mem_edgeOut _ _ _ _,
      edgeOut_pins_ascending _ _ _ _, edgeOut_length_eq _ _ _ _⟩
  · exact ⟨s.after (.wrDir w), _, exec_eq_after _ s, State.after_trace s _, mem_edgeDir _ _ _,
      edgeDir_pins_ascending _ _ _, edgeDir_length_eq _ _ _⟩

/-- Settles O39: a `DIR` write emits no `OutNotify` and an `OUT` write no `DirNotify`, and no other operation
notifies. -/
theorem eachWriteEmitsOnlyItsOwnNotifications : Obligations.EachWriteEmitsOnlyItsOwnNotifications := by
  intro i s
  refine ⟨s.after i, _, exec_eq_after i s, State.after_trace s i, fun e he hnotify => ?_, fun e he hnotify => ?_⟩
  · by_contra hout
    by_cases hdir : ∃ w, i = .wrDir w
    · obtain ⟨w, rfl⟩ := hdir
      obtain ⟨k, b, rfl⟩ := eq_dirNotify_of_mem_edgeDir he
      cases hnotify
    · have hnone := notifiedPin_of_mem_eventsOf (not_exists.mp hout) (not_exists.mp hdir) he
      simp [(Event.not_notify_of_notifiedPin_eq_none hnone).1] at hnotify
  · by_contra hdir
    by_cases hout : ∃ w, i = .wrOut w
    · obtain ⟨w, rfl⟩ := hout
      obtain ⟨k, b, rfl⟩ := eq_outNotify_of_mem_edgeOut he
      cases hnotify
    · have hnone := notifiedPin_of_mem_eventsOf (not_exists.mp hout) (not_exists.mp hdir) he
      simp [(Event.not_notify_of_notifiedPin_eq_none hnone).2] at hnotify

/-- Settles O42: the level is written to the pin's own bit, and both reads return `value`. -/
theorem stimulusSetsTheInputPin : Obligations.StimulusSetsTheInputPin := by
  intro pin lvl s hc hpin hd
  have hbit (j : Nat) := setBit_getLsbD s.value pin j lvl (hpin.trans_le hc)
  exact ⟨_, exec_stim_input lvl hpin hd, (hbit pin).trans (if_pos rfl), fun j hj => (hbit j).trans (if_neg hj),
    rfl, rfl, rfl, rfl, exec_rdIn _, exec_rdOut _⟩

/-- Settles O43, the third case of the meaning of a stimulus. -/
theorem stimulusOnAnOutputPinIsDiscarded : Obligations.StimulusOnAnOutputPinIsDiscarded :=
  fun _ lvl _ hpin hd => exec_stim_output lvl hpin hd

/-- Settles O44, the first case of the meaning of a stimulus: the diagnostic moves the trace only. -/
theorem stimulusOutOfRangeIsRejected : Obligations.StimulusOutOfRangeIsRejected :=
  fun _ lvl _ hpin => exec_stim_range lvl hpin

/-- Settles O45: a stimulus is no write, so its events notify no pin. -/
theorem stimulusNotifiesNobody : Obligations.StimulusNotifiesNobody := by
  intro pin lvl s
  refine ⟨s.after (.stim pin lvl), _, exec_eq_after _ s, State.after_trace s _, fun e he => ?_⟩
  exact Event.not_notify_of_notifiedPin_eq_none (notifiedPin_of_mem_eventsOf (by simp) (by simp) he)

end Sys2Proof.Machine
end

section
/-! The exception statements (60_exceptions.md): what a diagnostic leaves unchanged (R102), and the block with nothing
delivered (R116). -/

namespace Sys2Proof.Machine

/-! ## The operations that raise a diagnostic (R100) -/

/-- A diagnostic comes from an invalid access, a stimulus out of range or a restore of an unknown version only. -/
theorem raiser_of_not_diagFree {c : Config} {v d : Word} {i : Instr} (h : ¬ DiagFree (eventsOf c v d i)) :
    (∃ off sz, i = .rdBad off sz) ∨ (∃ off sz w, i = .wrBad off sz w) ∨
      (∃ pin lvl, i = .stim pin lvl ∧ c.pinCount ≤ pin) ∨ ∃ ver v' d', i = .restore ver v' d' ∧ ver ≠ 1#8 := by
  cases i with
  | rdBad off sz => exact .inl ⟨off, sz, rfl⟩
  | wrBad off sz w => exact .inr (.inl ⟨off, sz, w, rfl⟩)
  | stim pin lvl =>
    have hpin : c.pinCount ≤ pin := by
      by_contra hpin
      simp [eventsOf, hpin, DiagFree] at h
    exact .inr (.inr (.inl ⟨pin, lvl, rfl, hpin⟩))
  | restore ver v' d' =>
    have hver : ver ≠ 1#8 := by
      rintro rfl
      simp [eventsOf, DiagFree] at h
    exact .inr (.inr (.inr ⟨ver, v', d', rfl, hver⟩))
  | wrOut w => exact absurd (edgeOut_diagFree _ _ _ _) h
  | wrDir w => exact absurd (edgeDir_diagFree _ _ _) h
  | rdIn | rdOut | rdDir | wrIn | reset | save => simp [eventsOf, DiagFree, Event.isDiag] at h

/-- An operation that raises a diagnostic only emits (R102). -/
theorem State.after_of_not_diagFree {s : State} {i : Instr} (h : ¬ DiagFree (eventsOf s.cfg s.value s.direction i)) :
    s.after i = s.emit (eventsOf s.cfg s.value s.direction i) := by
  obtain ⟨off, sz, rfl⟩ | ⟨off, sz, w, rfl⟩ | ⟨pin, lvl, rfl, hpin⟩ | ⟨ver, v, d, rfl, hver⟩ :=
    raiser_of_not_diagFree h
  · rfl
  · rfl
  · simp [State.after, State.emit, valueAfter, directionAfter, hpin.not_gt]
  · simp [State.after, State.emit, valueAfter, directionAfter, hver]

/-- A read that raises a diagnostic returns the word 0 (R70). -/
theorem readData_zero_mem_of_not_diagFree {c : Config} {v d : Word} {i : Instr} (h : ¬ DiagFree (eventsOf c v d i))
    (hread : isRead i = true) : Event.readData 0#32 ∈ eventsOf c v d i := by
  obtain ⟨off, sz, rfl⟩ | ⟨off, sz, w, rfl⟩ | ⟨pin, lvl, rfl, _⟩ | ⟨ver, v', d', rfl, _⟩ := raiser_of_not_diagFree h
  · simp [eventsOf]
  · cases hread
  · cases hread
  · cases hread

/-- An operation that is no read and raises a diagnostic emits that diagnostic alone. -/
theorem eventsOf_eq_diag_of_not_diagFree {c : Config} {v d : Word} {i : Instr} (h : ¬ DiagFree (eventsOf c v d i))
    (hread : isRead i = false) : ∃ code, eventsOf c v d i = [.diag code] := by
  obtain ⟨off, sz, rfl⟩ | ⟨off, sz, w, rfl⟩ | ⟨pin, lvl, rfl, hpin⟩ | ⟨ver, v', d', rfl, hver⟩ :=
    raiser_of_not_diagFree h
  · cases hread
  · exact ⟨writeDiag off sz, rfl⟩
  · exact ⟨.stimPinRange, if_pos hpin⟩
  · exact ⟨.restoreBadVersion, if_neg hver⟩

/-! ## Waiting (R116) -/

/-- With nothing delivered there is nothing to fetch. -/
theorem fetch_of_pending_nil {s : State} (hp : s.pending = []) : fetch s = none := by rw [fetch, hp]

/-! ## The statements -/

/-- Settles O40: an operation that raises a diagnostic only emits, and the next one reads the configuration and the two
words alone. -/
theorem diagnosticsChangeNoWord : Obligations.DiagnosticsChangeNoWord := by
  intro i s
  refine ⟨s.after i, _, exec_eq_after i s, State.after_trace s i, fun hdiag => ?_⟩
  have hafter := State.after_of_not_diagFree hdiag
  refine ⟨hafter, readData_zero_mem_of_not_diagFree hdiag, eventsOf_eq_diag_of_not_diagFree hdiag, fun j => ?_⟩
  rw [hafter]
  exact ⟨s.after j, State.after (s.emit _) j, _, exec_eq_after j s, exec_eq_after j _, rfl, rfl,
    State.after_trace s j, State.after_trace _ j⟩

/-- Settles O17: nothing is fetched, so the step keeps the state. -/
theorem blockWaitsWithNothingDelivered : Obligations.BlockWaitsWithNothingDelivered := by
  intro s hp
  rw [step, fetch_of_pending_nil hp]

end Sys2Proof.Machine
end

section
/-! The reset and hazard statements (70_reset_and_hazards.md): construction and reset (R118 to R124), and the hazards
that software sees (R126 to R131). What a consumer knows turns on one fact, `outNotify_mem_eventsOf_iff`: an output line
is notified by an `OUT` write only, of a bound output pin whose `value` bit changes. -/

namespace Sys2Proof.Machine

/-! ## Construction (R118, R119) -/

/-- No binding names a pin at or above `PIN_COUNT`, pin by pin. -/
theorem bindingsOk_iff (c : Config) :
    bindingsOk c = true ↔ ∀ i, c.pinCount ≤ i → c.outBoundAt i = false ∧ c.dirBoundAt i = false := by
  simp only [bindingsOk, Config.outBoundAt, Config.dirBoundAt, Bool.and_eq_true, List.all_eq_true, decide_eq_true_eq,
    List.contains_eq_mem, decide_eq_false_iff_not]
  constructor
  · rintro ⟨hout, hdir⟩ i hi
    exact ⟨fun hm => hi.not_gt (hout i hm), fun hm => hi.not_gt (hdir i hm)⟩
  · intro h
    exact ⟨fun i hm => Nat.lt_of_not_le fun hi => (h i hi).1 hm, fun i hm => Nat.lt_of_not_le fun hi => (h i hi).2 hm⟩

/-- The configurations that construction accepts, pin by pin. -/
theorem configOk_iff (c : Config) :
    configOk c = true ↔ (1 ≤ c.pinCount ∧ c.pinCount ≤ 32) ∧
      ∀ i, c.pinCount ≤ i → c.outBoundAt i = false ∧ c.dirBoundAt i = false := by
  rw [configOk, Bool.and_eq_true, bindingsOk_iff, pinCountOk, decide_eq_true_eq]

/-- Construction from a legal configuration gives the fresh state of it. -/
theorem construct_of_configOk {c : Config} (h : configOk c = true) : construct c = .next (freshInstance c) := by
  obtain ⟨hp, hb⟩ : pinCountOk c = true ∧ bindingsOk c = true := by simpa [configOk] using h
  simp [construct, hp, hb]

/-- Construction from any other configuration is refused. -/
theorem construct_refused_of_not_configOk {c : Config} (h : ¬ configOk c = true) : ∃ r, construct c = .refused r := by
  by_cases hp : pinCountOk c = false
  · exact ⟨.pinCountRange, if_pos hp⟩
  · have hb : bindingsOk c = false := by simpa [configOk, hp] using h
    exact ⟨.bindingRange, (if_neg hp).trans (if_pos hb)⟩

/-! ## What an output consumer is told (R28, R80) -/

/-- On an output pin an `OUT` write leaves the written bit (R75). -/
theorem maskedWrite_getLsbD_of_output (v : Word) {d : Word} (w : Word) {k : Nat} (hd : d.getLsbD k = true) :
    (maskedWrite v d w).getLsbD k = w.getLsbD k := by
  rw [maskedWrite_getLsbD, if_pos hd]

/-- An operation notifies an output line exactly when it is an `OUT` write and the pin is a bound output pin whose
`value` bit the write changes; the level is then the written bit. -/
theorem outNotify_mem_eventsOf_iff (c : Config) (v d : Word) (i : Instr) (k : Nat) (b : Bool) :
    Event.outNotify k b ∈ eventsOf c v d i ↔ ∃ w, i = .wrOut w ∧ k < c.pinCount ∧ d.getLsbD k = true ∧
      v.getLsbD k ≠ w.getLsbD k ∧ c.outBoundAt k = true ∧ b = w.getLsbD k := by
  by_cases hout : ∃ w, i = .wrOut w
  · obtain ⟨w, rfl⟩ := hout
    have hnew := maskedWrite_getLsbD_of_output v w (d := d) (k := k)
    rw [eventsOf, mem_edgeOut]
    constructor
    · rintro ⟨j, hj, hd, hne, hbound, he⟩
      obtain ⟨rfl, rfl⟩ := Event.outNotify.inj he
      rw [hnew hd] at hne ⊢
      exact ⟨w, rfl, hj, hd, hne, hbound, rfl⟩
    · rintro ⟨w', hw, hk, hd, hne, hbound, rfl⟩
      obtain rfl := Instr.wrOut.inj hw
      exact ⟨k, hk, hd, by rwa [hnew hd], hbound, by rw [hnew hd]⟩
  · refine iff_of_false (fun he => ?_) fun ⟨w, hw, _⟩ => hout ⟨w, hw⟩
    by_cases hdir : ∃ w, i = .wrDir w
    · obtain ⟨w, rfl⟩ := hdir
      obtain ⟨j, b', hj⟩ := eq_dirNotify_of_mem_edgeDir he
      cases hj
    · cases notifiedPin_of_mem_eventsOf (not_exists.mp hout) (not_exists.mp hdir) he

/-- A consumer that an operation does not notify keeps its level. -/
theorem lastOutLevel_after_of_not_notified {s : State} {i : Instr} {k : Nat}
    (h : ∀ b, Event.outNotify k b ∉ eventsOf s.cfg s.value s.direction i) :
    lastOutLevel k (s.after i).trace = lastOutLevel k s.trace := by
  rw [State.after_trace, lastOutLevel_append, foldl_knownAfter_of_not_mem k _ _ h]

/-- A consumer that an operation notifies holds the level it is told: one operation tells it one level only. -/
theorem lastOutLevel_after_of_notified {s : State} {i : Instr} {k : Nat} {b : Bool}
    (h : Event.outNotify k b ∈ eventsOf s.cfg s.value s.direction i) :
    lastOutLevel k (s.after i).trace = some b := by
  rw [State.after_trace, lastOutLevel_append]
  refine foldl_knownAfter_of_mem k _ _ b h fun b' h' => ?_
  obtain ⟨w, rfl, -, -, -, -, rfl⟩ := (outNotify_mem_eventsOf_iff _ _ _ _ _ _).mp h
  obtain ⟨w', hw, -, -, -, -, rfl⟩ := (outNotify_mem_eventsOf_iff _ _ _ _ _ _).mp h'
  rw [Instr.wrOut.inj hw]

/-- Where a consumer's level changed, the operation notified it. -/
theorem exists_outNotify_of_lastOutLevel_ne {s : State} {i : Instr} {k : Nat}
    (h : lastOutLevel k (s.after i).trace ≠ lastOutLevel k s.trace) :
    ∃ b, Event.outNotify k b ∈ eventsOf s.cfg s.value s.direction i := by
  by_contra hnone
  exact h (lastOutLevel_after_of_not_notified (not_exists.mp hnone))

/-- The consumer of an input pin keeps its level, whatever the operation. -/
theorem lastOutLevel_after_of_input {s : State} {k : Nat} (i : Instr) (hd : s.direction.getLsbD k = false) :
    lastOutLevel k (s.after i).trace = lastOutLevel k s.trace := by
  refine lastOutLevel_after_of_not_notified fun b hb => ?_
  obtain ⟨w, -, -, hout, -⟩ := (outNotify_mem_eventsOf_iff _ _ _ _ _ _).mp hb
  simp [hd] at hout

/-- A consumer keeps its level over a `DIR` write. -/
theorem lastOutLevel_after_wrDir (s : State) (d : Word) (k : Nat) :
    lastOutLevel k (s.after (.wrDir d)).trace = lastOutLevel k s.trace := by
  refine lastOutLevel_after_of_not_notified fun b hb => ?_
  obtain ⟨w, hw, -⟩ := (outNotify_mem_eventsOf_iff _ _ _ _ _ _).mp hb
  cases hw

/-! ## An input pin keeps its level (R127) -/

/-- Of an input pin, only stimulus for the pin, a reset and a restore write the `value` bit. -/
theorem valueAfter_getLsbD_of_input {c : Config} {v d : Word} {i : Instr} {k : Nat} (hc : c.pinCount ≤ 32)
    (hd : d.getLsbD k = false) (hreset : i ≠ .reset) (hrestore : ∀ ver v' d', i ≠ .restore ver v' d')
    (hstim : ∀ lvl, i ≠ .stim k lvl) : (valueAfter c v d i).getLsbD k = v.getLsbD k := by
  cases i with
  | wrOut w => simp [valueAfter, maskedWrite_getLsbD, hd]
  | wrDir w => simp [valueAfter, valueAfterDir_getLsbD, hd]
  | stim pin lvl =>
    have hpin : k ≠ pin := by
      rintro rfl
      exact hstim lvl rfl
    simp only [valueAfter]
    split
    · next hin => rw [setBit_getLsbD v pin k lvl (by omega), if_neg hpin]
    · rfl
  | reset => exact absurd rfl hreset
  | restore ver v' d' => exact absurd rfl (hrestore ver v' d')
  | rdIn | rdOut | rdDir | rdBad | wrIn | wrBad | save => rfl

/-- An operation that is no `DIR` write, no reset and no restore keeps `direction`. -/
theorem directionAfter_eq_self {c : Config} {d : Word} {i : Instr} (hdir : ∀ w, i ≠ .wrDir w) (hreset : i ≠ .reset)
    (hrestore : ∀ ver v' d', i ≠ .restore ver v' d') : directionAfter c d i = d := by
  by_contra hne
  obtain ⟨w, hi⟩ | hi | ⟨v', d', hi⟩ := writer_of_directionAfter_ne hne
  · exact hdir w hi
  · exact hreset hi
  · exact hrestore 1#8 v' d' hi

/-- A run without a `DIR` write, a reset, a restore and stimulus for an input pin leaves the pin an input with its
`value` bit, and tells its consumer nothing. -/
theorem runAll_keeps_input_pin {k : Nat} {ops : List Instr}
    (hops : ∀ o ∈ ops, (∀ w, o ≠ .wrDir w) ∧ o ≠ .reset ∧ (∀ ver v x, o ≠ .restore ver v x) ∧ ∀ lvl, o ≠ .stim k lvl)
    {s : State} (hc : s.cfg.pinCount ≤ 32) (hd : s.direction.getLsbD k = false) :
    ∃ t, runAll ops s = .next t ∧ t.direction.getLsbD k = false ∧ t.value.getLsbD k = s.value.getLsbD k ∧
      lastOutLevel k t.trace = lastOutLevel k s.trace := by
  induction ops generalizing s with
  | nil => exact ⟨s, rfl, hd, rfl, rfl⟩
  | cons o ops ih =>
    rw [List.forall_mem_cons] at hops
    obtain ⟨⟨hdir, hreset, hrestore, hstim⟩, hops⟩ := hops
    have hd' : (s.after o).direction.getLsbD k = false := by
      rw [State.after_direction, directionAfter_eq_self hdir hreset hrestore, hd]
    obtain ⟨t, ht, htd, htv, htl⟩ := ih hops (s := s.after o) hc hd'
    rw [runAll_cons_of_next (exec_eq_after o s)]
    exact ⟨t, ht, htd, htv.trans (valueAfter_getLsbD_of_input hc hd hreset hrestore hstim),
      htl.trans (lastOutLevel_after_of_input o hd)⟩

/-! ## Stimulus beside a write (R129, R131) -/

/-- Where the configuration takes the reading of R76, a `DIR` write keeps `value` (D28). -/
theorem State.after_wrDir_value_of_keeps {s : State} (d : Word) (h : s.cfg.dirToInputClears = false) :
    (s.after (.wrDir d)).value = s.value := by
  simp [valueAfter, valueAfterDir, h]

/-- An `OUT` write and a write of an input pin's bit commute (R75, R86). -/
theorem maskedWrite_setBit {v d : Word} {pin : Nat} (lvl : Bool) (w : Word) (hpin : pin < 32)
    (hd : d.getLsbD pin = false) :
    maskedWrite (setBit v pin lvl) d w = setBit (maskedWrite v d w) pin lvl := by
  apply BitVec.eq_of_getLsbD_eq
  intro i _
  simp only [maskedWrite_getLsbD, setBit_getLsbD _ pin _ lvl hpin]
  by_cases hi : i = pin
  · simp [hi, hd]
  · simp [hi]

/-- The edge detector of an `OUT` write looks at the output pins only (R80). -/
theorem edgeOut_congr (c : Config) {p n p' n' d : Word} (hp : ∀ i, d.getLsbD i = true → p.getLsbD i = p'.getLsbD i)
    (hn : ∀ i, d.getLsbD i = true → n.getLsbD i = n'.getLsbD i) : edgeOut c p n d = edgeOut c p' n' d := by
  have hchanged : (p ^^^ n) &&& d = (p' ^^^ n') &&& d := by
    apply BitVec.eq_of_getLsbD_eq
    intro i _
    by_cases hd : d.getLsbD i = true
    · simp [hp i hd, hn i hd]
    · simp [hd]
  rw [edgeOut, edgeOut, hchanged]
  refine List.flatMap_congr fun i hi => ?_
  obtain ⟨-, hbit⟩ := (mem_changedPins _ _ i).mp hi
  rw [BitVec.getLsbD_and, Bool.and_eq_true] at hbit
  rw [hn i hbit.2]

/-- The bit of an input pin is none that the edge detector of an `OUT` write looks at. -/
theorem edgeOut_setBit (c : Config) {p n d : Word} {pin : Nat} (lvl : Bool) (hpin : pin < 32)
    (hd : d.getLsbD pin = false) :
    edgeOut c (setBit p pin lvl) (setBit n pin lvl) d = edgeOut c p n d := by
  have hother (x : Word) (i : Nat) (hi : d.getLsbD i = true) : (setBit x pin lvl).getLsbD i = x.getLsbD i := by
    have hne : i ≠ pin := by
      rintro rfl
      simp [hd] at hi
    rw [setBit_getLsbD x pin i lvl hpin, if_neg hne]
  exact edgeOut_congr c (hother p) (hother n)

/-- Stimulus on an input pin writes the pin's bit (R86). -/
theorem State.after_stim_input {s : State} {pin : Nat} (lvl : Bool) (h : pin < s.cfg.pinCount)
    (hd : s.direction.getLsbD pin = false) : s.after (.stim pin lvl) = s.setValue (setBit s.value pin lvl) :=
  (eq_after_of_exec (exec_stim_input lvl h hd)).symm

/-- Stimulus on an output pin leaves the whole state (R87). -/
theorem State.after_stim_output {s : State} {pin : Nat} (lvl : Bool) (h : pin < s.cfg.pinCount)
    (hd : s.direction.getLsbD pin = true) : s.after (.stim pin lvl) = s :=
  (eq_after_of_exec (exec_stim_output lvl h hd)).symm

/-- An `OUT` write that follows a write of an input pin's bit leaves what it leaves alone, with that bit written. -/
theorem State.after_wrOut_setBit {s : State} {pin : Nat} (lvl : Bool) (w : Word) (hpin : pin < 32)
    (hd : s.direction.getLsbD pin = false) :
    (s.setValue (setBit s.value pin lvl)).after (.wrOut w) =
      (s.after (.wrOut w)).setValue (setBit (s.after (.wrOut w)).value pin lvl) := by
  simp [State.after, State.setValue, valueAfter, directionAfter, eventsOf, maskedWrite_setBit lvl w hpin hd,
    edgeOut_setBit s.cfg lvl hpin hd]

/-- Stimulus for a pin in range and an `OUT` write commute: neither writes `direction`, and they write different bits of
`value`. -/
theorem State.after_stim_wrOut_comm {s : State} {pin : Nat} (lvl : Bool) (w : Word) (hc : s.cfg.pinCount ≤ 32)
    (hpin : pin < s.cfg.pinCount) :
    (s.after (.stim pin lvl)).after (.wrOut w) = (s.after (.wrOut w)).after (.stim pin lvl) := by
  cases hd : s.direction.getLsbD pin with
  | true => rw [State.after_stim_output lvl hpin hd, State.after_stim_output lvl (s := s.after (.wrOut w)) hpin hd]
  | false =>
    rw [State.after_stim_input lvl hpin hd, State.after_stim_input lvl (s := s.after (.wrOut w)) hpin hd,
      State.after_wrOut_setBit lvl w (hpin.trans_le hc) hd]

/-! ## The statements -/

/-- Settles O3: construction answers from the legal configurations and refuses the others, and these are the two kinds
of others. -/
theorem constructionZeroesOrRefuses : Obligations.ConstructionZeroesOrRefuses := by
  refine fun c => ⟨fun ⟨hlow, hhigh, hbound⟩ => ?_, fun hcount => ?_, fun i hi hbound => ?_⟩
  · have hok : configOk c = true := (configOk_iff c).mpr ⟨⟨hlow, hhigh⟩, hbound⟩
    exact ⟨freshInstance c, construct_of_configOk hok, rfl, rfl, rfl, rfl, freshInstance_inv hok⟩
  · refine construct_refused_of_not_configOk fun hok => ?_
    obtain ⟨⟨hlow, hhigh⟩, -⟩ := (configOk_iff c).mp hok
    omega
  · refine construct_refused_of_not_configOk fun hok => ?_
    obtain ⟨-, hnone⟩ := (configOk_iff c).mp hok
    obtain ⟨hout, hdir⟩ := hnone i hi
    simp [hout, hdir] at hbound

/-- Settles O4: the two states agree in the configuration and the two words, of which an operation's effect is a
function. -/
theorem freshAndResetInstancesBehaveAlike : Obligations.FreshAndResetInstancesBehaveAlike := by
  intro c t s u i ht hs hu
  obtain ⟨-, rfl⟩ := construct_cases ht
  obtain rfl := eq_after_of_exec hu
  subst hs
  exact ⟨rfl, rfl, rfl, _, _, _, exec_eq_after i _, exec_eq_after i _, rfl, rfl, State.after_trace _ i,
    State.after_trace _ i⟩

/-- Settles O51: the `OUT` write leaves the bit of an input pin, and so does a `DIR` write of a pin that was an input;
with `DIR` first the pin is an output and takes the written bit. -/
theorem outWriteBeforeDirIsLost : Obligations.OutWriteBeforeDirIsLost := by
  intro w d s i hc hi hin hd
  have hdir : (maskPins s.cfg d).getLsbD i = true := by simp [maskPins_getLsbD s.cfg d i hc, hd, hi]
  refine ⟨_, _, runAll_pair _ _ s, hdir, ?_, runAll_pair _ _ s, hdir, ?_⟩
  · simp [valueAfter, directionAfter, valueAfterDir_getLsbD, maskedWrite_getLsbD, hin]
  · exact maskedWrite_getLsbD_of_output _ w hdir

/-- Settles O52: the `DIR` write keeps `value` and tells no output consumer, and the run after it keeps an input pin. -/
theorem drivenLevelIsRetainedOnAnInput : Obligations.DrivenLevelIsRetainedOnAnInput := by
  intro d s i ops hc hkeeps _ _ hd hops
  have hin : (s.after (.wrDir d)).direction.getLsbD i = false := by
    simp [directionAfter, maskPins_getLsbD s.cfg d i hc, hd]
  obtain ⟨t, ht, htd, htv, htl⟩ := runAll_keeps_input_pin hops (s := s.after (.wrDir d)) hc hin
  rw [runAll_cons_of_next (exec_eq_after _ s)]
  exact ⟨t, ht, htd, by rw [htv, State.after_wrDir_value_of_keeps d hkeeps],
    htl.trans (lastOutLevel_after_wrDir s d i)⟩

/-- Settles O53: a level that changed was told, and what is told is a `value` bit that an `OUT` write changed. -/
theorem consumerLevelFollowsOnlyChanges : Obligations.ConsumerLevelFollowsOnlyChanges := by
  refine fun i s pin => ⟨s.after i, exec_eq_after i s, fun hne => ?_⟩
  obtain ⟨b, hb⟩ := exists_outNotify_of_lastOutLevel_ne hne
  have hlevel := lastOutLevel_after_of_notified hb
  obtain ⟨w, rfl, -, hd, hchange, -, rfl⟩ := (outNotify_mem_eventsOf_iff _ _ _ _ _ _).mp hb
  have hnew : (s.after (.wrOut w)).value.getLsbD pin = w.getLsbD pin := maskedWrite_getLsbD_of_output _ w hd
  rw [hnew]
  exact ⟨⟨w, rfl⟩, hchange.symm, hlevel⟩

/-- Settles O54: the first write leaves the complement in the `value` bit, so the second one changes it and tells. -/
theorem twoOutWritesResyncTheConsumer : Obligations.TwoOutWritesResyncTheConsumer := by
  intro w w' b s i hi hbound hd hw hw'
  have hfirst : (s.after (.wrOut w)).value.getLsbD i = !b :=
    (maskedWrite_getLsbD_of_output _ w hd).trans hw
  have hchange : (s.after (.wrOut w)).value.getLsbD i ≠ w'.getLsbD i := by
    rw [hfirst, hw']
    exact Bool.not_ne_self b
  have hnotify : Event.outNotify i b ∈ eventsOf s.cfg (s.after (.wrOut w)).value s.direction (.wrOut w') :=
    (outNotify_mem_eventsOf_iff _ _ _ _ _ _).mpr ⟨w', rfl, hi, hd, hchange, hbound, hw'.symm⟩
  exact ⟨s.after (.wrOut w), (s.after (.wrOut w)).after (.wrOut w'), _, exec_eq_after _ s, exec_eq_after _ _,
    State.after_trace _ _, hnotify, lastOutLevel_after_of_notified hnotify,
    (maskedWrite_getLsbD_of_output _ w' hd).trans hw'⟩

/-- Settles O55: the stimulus leaves the whole state, and the `DIR` write keeps `value`, which the read returns. -/
theorem stimulusOnAnOutputIsNotLatched : Obligations.StimulusOnAnOutputIsNotLatched := by
  intro lvl d s i hc hkeeps hi hout hd
  rw [runAll_cons_of_next (exec_stim_output lvl hi hout), runAll_pair]
  refine ⟨_, rfl, ?_, ?_⟩
  · simp [directionAfter, maskPins_getLsbD s.cfg d i hc, hd]
  · rw [State.after_trace, eventsOf, List.getLast?_concat, State.after_wrDir_value_of_keeps d hkeeps]

/-- Settles O56: stimulus and an `OUT` write leave one state in either order, and `direction` after a `DIR` write is the
masked word, whatever it was before. -/
theorem readModifyWriteHazards : Obligations.ReadModifyWriteHazards := by
  refine ⟨fun pin lvl w s hc hpin => ⟨_, runAll_pair _ _ s, ?_⟩, fun d d' s => ⟨_, runAll_pair _ _ s, rfl⟩⟩
  rw [runAll_pair, State.after_stim_wrOut_comm lvl w hc hpin]

/-- Settles O1: the reset state of the machine is the fresh state of the standard configuration. -/
theorem resetStateIsZeroAndSilent : Obligations.ResetStateIsZeroAndSilent :=
  ⟨rfl, rfl, rfl, rfl, rfl⟩

/-- Settles O46: the descriptor is the encoding of `RESET`, which sets the two words and nothing else. -/
theorem resetClearsBothWordsSilently : Obligations.ResetClearsBothWordsSilently :=
  ⟨decode_encode (i := .reset) rfl, exec_reset⟩

/-- Settles O50: the read's word is the last event, and it is the word the write left. -/
theorem readAfterWriteReturnsTheResult : Obligations.ReadAfterWriteReturnsTheResult :=
  fun _ s => ⟨_, _, runAll_pair _ _ s, List.getLast?_concat, runAll_pair _ _ s, List.getLast?_concat⟩

end Sys2Proof.Machine
end

section
/-! The encoding statements (30_encoding.md): the round trip (R59), the opcode map (R60), the reserved descriptors (R61), the
lengths (R63) and the assembler lines (R64 to R66). They turn on one fact, `decode_eq_ok_iff`: decoding answers an operation
exactly for the encoding of a well-formed one. -/

namespace Sys2Proof.Machine

/-! ## The encoding of what a bus access decodes to (R53, R59) -/

/-- The read at an offset and a width is encoded with that offset and width. -/
theorem encode_readAt (off : BitVec 8) (sz : Width) : encode (readAt off sz) = ⟨formatB 0b000#3 sz off, []⟩ := by
  obtain ⟨rfl, rfl, hr⟩ | ⟨rfl, rfl, hr⟩ | ⟨rfl, rfl, hr⟩ | ⟨_, hr⟩ := readAt_cases off sz <;> rw [hr, encode]

/-- The write at an offset and a width is encoded with that offset, width and word. -/
theorem encode_writeAt (off : BitVec 8) (sz : Width) (w : Word) :
    encode (writeAt off sz w) = ⟨formatB 0b001#3 sz off, [w]⟩ := by
  obtain ⟨rfl, rfl, hr⟩ | ⟨rfl, rfl, hr⟩ | ⟨rfl, rfl, hr⟩ | ⟨_, hr⟩ := writeAt_cases off sz w <;> rw [hr, encode]

/-- The read at any offset and width is a well-formed operation. -/
theorem readAt_wf (off : BitVec 8) (sz : Width) : (readAt off sz).wf = true := by
  obtain ⟨_, _, hr⟩ | ⟨_, _, hr⟩ | ⟨_, _, hr⟩ | ⟨hs, hr⟩ := readAt_cases off sz
  · rw [hr, Instr.wf]
  · rw [hr, Instr.wf]
  · rw [hr, Instr.wf]
  · rw [hr, Instr.wf, hs, Bool.not_false]

/-- The write at any offset and width is a well-formed operation. -/
theorem writeAt_wf (off : BitVec 8) (sz : Width) (w : Word) : (writeAt off sz w).wf = true := by
  obtain ⟨_, _, hr⟩ | ⟨_, _, hr⟩ | ⟨_, _, hr⟩ | ⟨hs, hr⟩ := writeAt_cases off sz w
  · rw [hr, Instr.wf]
  · rw [hr, Instr.wf]
  · rw [hr, Instr.wf]
  · rw [hr, Instr.wf, hs, Bool.not_false]

/-! ## The round trip (R59) -/

/-- A request that decodes is the encoding of its operation, which is well-formed: in each class the descriptor is made
again from its fields. -/
theorem wf_and_encode_of_decode {r : Request} {i : Instr} (h : decode r = .ok i) : i.wf = true ∧ encode i = r := by
  obtain ⟨hc, hr, ho, rfl⟩ | ⟨hc, hr, w, ho, rfl⟩ | ⟨hc, hr, ho, rfl⟩ | ⟨hc, hr, ho, rfl⟩ | ⟨hc, hr, ho, rfl⟩ |
    ⟨hc, hr, v, d, ho, rfl⟩ := decode_cases h
  · exact ⟨readAt_wf _ _, by rw [encode_readAt, formatB_of_fields hc hr, ← ho]⟩
  · exact ⟨writeAt_wf _ _ w, by rw [encode_writeAt, formatB_of_fields hc hr, ← ho]⟩
  · have hpin : (fieldPin r.desc).toNat < 64 := (fieldPin r.desc).isLt
    refine ⟨decide_eq_true hpin, ?_⟩
    rw [encode, BitVec.ofNat_toNat, BitVec.setWidth_eq, formatS_of_fields hc hr, ← ho]
  · exact ⟨rfl, by rw [encode, formatN_of_fields hc hr, ← ho]⟩
  · exact ⟨rfl, by rw [encode, formatN_of_fields hc hr, ← ho]⟩
  · exact ⟨rfl, by rw [encode, formatR_of_fields hc hr, ← ho]⟩

/-- Decoding answers an operation exactly when it is well-formed and the request is its encoding. -/
theorem decode_eq_ok_iff (r : Request) (i : Instr) : decode r = .ok i ↔ i.wf = true ∧ encode i = r := by
  refine ⟨wf_and_encode_of_decode, ?_⟩
  rintro ⟨hwf, rfl⟩
  exact decode_encode hwf

/-! ## The length of a request (R63) -/

/-- The request of every operation carries the operand words of its class. -/
theorem encode_operands_length (i : Instr) : (encode i).operands.length = operandCount (fieldCls (encode i).desc) := by
  cases i with
  | rdIn => exact Laws.EncodedLength.rdIn
  | rdOut => exact Laws.EncodedLength.rdOut
  | rdDir => exact Laws.EncodedLength.rdDir
  | rdBad off sz => exact Laws.EncodedLength.rdBad off sz
  | wrIn w => exact Laws.EncodedLength.wrIn w
  | wrOut w => exact Laws.EncodedLength.wrOut w
  | wrDir w => exact Laws.EncodedLength.wrDir w
  | wrBad off sz w => exact Laws.EncodedLength.wrBad off sz w
  | stim pin lvl => exact Laws.EncodedLength.stim pin lvl
  | reset => exact Laws.EncodedLength.reset
  | save => exact Laws.EncodedLength.save
  | restore ver v d => exact Laws.EncodedLength.restore ver v d

/-- A request that decodes carries the operand words of its class. -/
theorem operands_length_of_decode {r : Request} {i : Instr} (h : decode r = .ok i) :
    r.operands.length = operandCount (fieldCls r.desc) := by
  obtain ⟨_, rfl⟩ := wf_and_encode_of_decode h
  exact encode_operands_length i

/-! ## The decoder, class by class (R59) -/

/-- The reads, with clear reserved bits. -/
theorem decode_of_readClass {r : Request} (hc : fieldCls r.desc = 0b000#3) (hr : reservedB r.desc = 0#3) :
    decode r = withoutOperands (readAt (fieldOff r.desc) (widthOfCode (fieldSz r.desc))) r.operands := by
  simp [decode, hc, hr]

/-- The writes. -/
theorem decode_of_writeClass {r : Request} (hc : fieldCls r.desc = 0b001#3) (hr : reservedB r.desc = 0#3) :
    decode r = withOneOperand (writeAt (fieldOff r.desc) (widthOfCode (fieldSz r.desc))) r.operands := by
  simp [decode, hc, hr]

/-- `STIM`. -/
theorem decode_of_stimClass {r : Request} (hc : fieldCls r.desc = 0b010#3) (hr : reservedS r.desc = 0#6) :
    decode r = withoutOperands (.stim (fieldPin r.desc).toNat (fieldLvl r.desc)) r.operands := by
  simp [decode, hc, hr]

/-- `RESET`. -/
theorem decode_of_resetClass {r : Request} (hc : fieldCls r.desc = 0b011#3) (hr : reservedN r.desc = 0#13) :
    decode r = withoutOperands .reset r.operands := by
  simp [decode, hc, hr]

/-- `SAVE`. -/
theorem decode_of_saveClass {r : Request} (hc : fieldCls r.desc = 0b100#3) (hr : reservedN r.desc = 0#13) :
    decode r = withoutOperands .save r.operands := by
  simp [decode, hc, hr]

/-- `RESTORE`. -/
theorem decode_of_restoreClass {r : Request} (hc : fieldCls r.desc = 0b101#3) (hr : reservedR r.desc = 0#5) :
    decode r = withTwoOperands (.restore (fieldVer r.desc)) r.operands := by
  simp [decode, hc, hr]

/-- A read with reserved bits that are not clear is refused (R61). -/
theorem decode_of_readClass_reserved {D : BitVec 16} (hc : fieldCls D = 0b000#3) (hr : reservedB D ≠ 0#3)
    (ws : List Word) : decode ⟨D, ws⟩ = .error .reservedBits := by
  simp [decode, hc, hr]

/-- The classes 110 and 111 are refused (R61). -/
theorem decode_of_reservedClass {D : BitVec 16} (hc : fieldCls D = 0b110#3 ∨ fieldCls D = 0b111#3) (ws : List Word) :
    decode ⟨D, ws⟩ = .error .reservedClass := by
  obtain hc | hc := hc <;> simp [decode, hc]

/-! ## The opcode map (R60)

A row without a field in its descriptor fixes the descriptor, and with it the operation; a row with fields is its class and
clear reserved bits. The two invalid accesses are what is left of the rows of all reads and of all writes. -/

/-- Requests with the same descriptor carry equally many operand words once they decode (R63). -/
theorem operands_length_eq_of_desc_eq {r r' : Request} {i j : Instr} (h : decode r = .ok i) (h' : decode r' = .ok j)
    (hD : r.desc = r'.desc) : r.operands.length = r'.operands.length := by
  rw [operands_length_of_decode h, operands_length_of_decode h', hD]

/-- The row of an operation without fields. -/
theorem eq_iff_desc {r : Request} {i j : Instr} {D : BitVec 16} (h : decode r = .ok i) (hj : decode ⟨D, []⟩ = .ok j) :
    i = j ↔ r.desc = D := by
  refine ⟨?_, fun hD => ?_⟩
  · rintro rfl
    rw [← (wf_and_encode_of_decode h).2, (wf_and_encode_of_decode hj).2]
  · have hnil : r.operands = [] := List.length_eq_zero_iff.mp (operands_length_eq_of_desc_eq h hj hD)
    rw [← hD, ← hnil] at hj
    exact Except.ok.inj (h.symm.trans hj)

/-- The row of an operation whose only field is its one operand word. -/
theorem exists_word_eq_iff_desc {r : Request} {i : Instr} {f : Word → Instr} {D : BitVec 16} (h : decode r = .ok i)
    (hf : ∀ w, decode ⟨D, [w]⟩ = .ok (f w)) : (∃ w, i = f w) ↔ r.desc = D := by
  refine ⟨?_, fun hD => ?_⟩
  · rintro ⟨w, rfl⟩
    rw [← (wf_and_encode_of_decode h).2, (wf_and_encode_of_decode (hf w)).2]
  · obtain ⟨w, hw⟩ := List.length_eq_one_iff.mp (operands_length_eq_of_desc_eq h (hf 0#32) hD)
    have hfw := hf w
    rw [← hD, ← hw] at hfw
    exact ⟨w, Except.ok.inj (h.symm.trans hfw)⟩

/-- The row of all reads. -/
theorem exists_readAt_iff_mask {r : Request} {i : Instr} (h : decode r = .ok i) :
    (∃ off sz, i = readAt off sz) ↔ r.desc &&& 0xE700#16 = 0x0000#16 := by
  rw [rdMask_iff]
  refine ⟨?_, fun ⟨hc, hr⟩ => ?_⟩
  · rintro ⟨off, sz, rfl⟩
    obtain ⟨_, rfl⟩ := wf_and_encode_of_decode h
    rw [encode_readAt]
    exact ⟨formatB_cls _ sz off, formatB_reserved _ sz off⟩
  · rw [decode_of_readClass hc hr, withoutOperands_ok] at h
    exact ⟨_, _, h.2⟩

/-- The row of all writes. -/
theorem exists_writeAt_iff_mask {r : Request} {i : Instr} (h : decode r = .ok i) :
    (∃ off sz w, i = writeAt off sz w) ↔ r.desc &&& 0xE700#16 = 0x2000#16 := by
  rw [wrMask_iff]
  refine ⟨?_, fun ⟨hc, hr⟩ => ?_⟩
  · rintro ⟨off, sz, w, rfl⟩
    obtain ⟨_, rfl⟩ := wf_and_encode_of_decode h
    rw [encode_writeAt]
    exact ⟨formatB_cls _ sz off, formatB_reserved _ sz off⟩
  · rw [decode_of_writeClass hc hr, withOneOperand_ok] at h
    obtain ⟨w, _, hi⟩ := h
    exact ⟨_, _, w, hi⟩

/-- The row of `STIM`. -/
theorem exists_stim_iff_mask {r : Request} {i : Instr} (h : decode r = .ok i) :
    (∃ pin lvl, i = .stim pin lvl) ↔ r.desc &&& 0xFF80#16 = 0x4000#16 := by
  rw [stimMask_iff]
  refine ⟨?_, fun ⟨hc, hr⟩ => ?_⟩
  · rintro ⟨pin, lvl, rfl⟩
    obtain ⟨_, rfl⟩ := wf_and_encode_of_decode h
    exact ⟨formatS_cls lvl _, formatS_reserved lvl _⟩
  · rw [decode_of_stimClass hc hr, withoutOperands_ok] at h
    exact ⟨_, _, h.2⟩

/-- The row of `RESTORE`. -/
theorem exists_restore_iff_mask {r : Request} {i : Instr} (h : decode r = .ok i) :
    (∃ ver v d, i = .restore ver v d) ↔ r.desc &&& 0xFF00#16 = 0xA000#16 := by
  rw [restoreMask_iff]
  refine ⟨?_, fun ⟨hc, hr⟩ => ?_⟩
  · rintro ⟨ver, v, d, rfl⟩
    obtain ⟨_, rfl⟩ := wf_and_encode_of_decode h
    exact ⟨formatR_cls ver, formatR_reserved ver⟩
  · rw [decode_of_restoreClass hc hr, withTwoOperands_ok] at h
    obtain ⟨v, d, _, hi⟩ := h
    exact ⟨_, v, d, hi⟩

/-- A decoded `RD_BAD` is a read that is none of the three reads of a register (R60). -/
theorem exists_rdBad_iff {i : Instr} (hwf : i.wf = true) :
    (∃ off sz, i = .rdBad off sz) ↔ (∃ off sz, i = readAt off sz) ∧ i ≠ .rdIn ∧ i ≠ .rdOut ∧ i ≠ .rdDir := by
  constructor
  · rintro ⟨off, sz, rfl⟩
    have hs : selectsRegister off sz = false := by simpa [Instr.wf] using hwf
    exact ⟨⟨off, sz, (readAt_of_not_selects hs).symm⟩, nofun, nofun, nofun⟩
  · rintro ⟨⟨off, sz, rfl⟩, hin, hout, hdir⟩
    obtain ⟨_, _, hr⟩ | ⟨_, _, hr⟩ | ⟨_, _, hr⟩ | ⟨_, hr⟩ := readAt_cases off sz
    · exact absurd hr hin
    · exact absurd hr hout
    · exact absurd hr hdir
    · exact ⟨off, sz, hr⟩

/-- A decoded `WR_BAD` is a write that is none of the three writes of a register (R60). -/
theorem exists_wrBad_iff {i : Instr} (hwf : i.wf = true) :
    (∃ off sz w, i = .wrBad off sz w) ↔
      (∃ off sz w, i = writeAt off sz w) ∧ (¬∃ w, i = .wrIn w) ∧ (¬∃ w, i = .wrOut w) ∧ ¬∃ w, i = .wrDir w := by
  constructor
  · rintro ⟨off, sz, w, rfl⟩
    have hs : selectsRegister off sz = false := by simpa [Instr.wf] using hwf
    exact ⟨⟨off, sz, w, (writeAt_of_not_selects w hs).symm⟩, nofun, nofun, nofun⟩
  · rintro ⟨⟨off, sz, w, rfl⟩, hin, hout, hdir⟩
    obtain ⟨_, _, hr⟩ | ⟨_, _, hr⟩ | ⟨_, _, hr⟩ | ⟨_, hr⟩ := writeAt_cases off sz w
    · exact absurd ⟨w, hr⟩ hin
    · exact absurd ⟨w, hr⟩ hout
    · exact absurd ⟨w, hr⟩ hdir
    · exact ⟨off, sz, w, hr⟩

/-! ## The reserved descriptors (R61) -/

/-- A field of a descriptor has a value exactly when the descriptor, under the field's mask, is that value in place. -/
theorem field_eq_iff_mask (D : BitVec 16) (s n : Nat) (hsn : s + n ≤ 16) (c : BitVec n) :
    D.extractLsb' s n = c ↔ D &&& (BitVec.allOnes n).setWidth 16 <<< s = c.setWidth 16 <<< s := by
  constructor
  · rintro rfl
    apply BitVec.eq_of_getLsbD_eq
    intro i hi
    by_cases his : i < s
    · simp [his]
    · simp [his, hi, show s + (i - s) = i by omega, Bool.and_comm]
  · intro h
    apply BitVec.eq_of_getLsbD_eq
    intro i hi
    have hbit := congrArg (fun x => x.getLsbD (s + i)) h
    simpa [hi, show s + i < 16 by omega, show i < 16 by omega] using hbit

/-- The two top bits of a descriptor are those of its class. -/
theorem topBits_eq (D : BitVec 16) : D.extractLsb' 14 2 = (fieldCls D).extractLsb' 1 2 := by
  apply BitVec.eq_of_getLsbD_eq
  intro i hi
  simp [fieldCls, hi, ← Nat.add_assoc, show 1 + i < 3 by omega]

/-- The reserved descriptors, by class and reserved field: classes 110 and 111, and in every other class the descriptors
whose reserved field is not zero. -/
theorem reservedDescriptor_iff (D : BitVec 16) :
    reservedDescriptor D ↔ (fieldCls D = 0b110#3 ∨ fieldCls D = 0b111#3) ∨
      ((fieldCls D = 0b000#3 ∨ fieldCls D = 0b001#3) ∧ reservedB D ≠ 0#3) ∨
      (fieldCls D = 0b010#3 ∧ reservedS D ≠ 0#6) ∨ (fieldCls D = 0b011#3 ∧ reservedN D ≠ 0#13) ∨
      (fieldCls D = 0b100#3 ∧ reservedN D ≠ 0#13) ∨ (fieldCls D = 0b101#3 ∧ reservedR D ≠ 0#5) := by
  have h11 : D &&& 0xC000#16 = 0xC000#16 ↔ fieldCls D = 0b110#3 ∨ fieldCls D = 0b111#3 := by
    refine (field_eq_iff_mask D 14 2 (by omega) 0b11#2).symm.trans ?_
    rw [topBits_eq]
    generalize fieldCls D = c
    revert c; decide
  have h00 : D &&& 0xC000#16 = 0x0000#16 ↔ fieldCls D = 0b000#3 ∨ fieldCls D = 0b001#3 := by
    refine (field_eq_iff_mask D 14 2 (by omega) 0b00#2).symm.trans ?_
    rw [topBits_eq]
    generalize fieldCls D = c
    revert c; decide
  have hcls (c : BitVec 3) : D &&& 0xE000#16 = c.setWidth 16 <<< 13 ↔ fieldCls D = c :=
    (field_eq_iff_mask D 13 3 (by omega) c).symm
  have hB : D &&& 0x0700#16 = 0#16 ↔ reservedB D = 0#3 := (field_eq_iff_mask D 8 3 (by omega) 0#3).symm
  have hS : D &&& 0x1F80#16 = 0#16 ↔ reservedS D = 0#6 := (field_eq_iff_mask D 7 6 (by omega) 0#6).symm
  have hN : D &&& 0x1FFF#16 = 0#16 ↔ reservedN D = 0#13 := (field_eq_iff_mask D 0 13 (by omega) 0#13).symm
  have hR : D &&& 0x1F00#16 = 0#16 ↔ reservedR D = 0#5 := (field_eq_iff_mask D 8 5 (by omega) 0#5).symm
  rw [reservedDescriptor, h11, h00, Ne, Ne, Ne, Ne, hB, hS, hN, hR, ← hcls 0b010#3, ← hcls 0b011#3, ← hcls 0b100#3,
    ← hcls 0b101#3]
  exact Iff.rfl

/-- The eight classes (R51). -/
theorem class_cases (c : BitVec 3) : c = 0b000#3 ∨ c = 0b001#3 ∨ c = 0b010#3 ∨ c = 0b011#3 ∨ c = 0b100#3 ∨
    c = 0b101#3 ∨ c = 0b110#3 ∨ c = 0b111#3 := by
  revert c; decide

/-- A reserved descriptor decodes to no operation: in each class that decodes, the reserved field is clear. -/
theorem exists_decode_eq_error_of_reserved {r : Request} (h : reservedDescriptor r.desc) : ∃ e, decode r = .error e := by
  cases hd : decode r with
  | error e => exact ⟨e, rfl⟩
  | ok i =>
    rw [reservedDescriptor_iff] at h
    obtain ⟨hc, hr, _⟩ | ⟨hc, hr, _⟩ | ⟨hc, hr, _⟩ | ⟨hc, hr, _⟩ | ⟨hc, hr, _⟩ | ⟨hc, hr, _⟩ := decode_cases hd <;>
      simp [hc, hr] at h

/-- An operation without operand words decodes from no operand words (R63). -/
theorem exists_withoutOperands_eq_ok (i : Instr) {ws : List Word} (h : ws.length = 0) :
    ∃ j, withoutOperands i ws = .ok j := by
  rw [List.length_eq_zero_iff.mp h]
  exact ⟨i, rfl⟩

/-- An operation of one operand word decodes from one (R63). -/
theorem exists_withOneOperand_eq_ok (f : Word → Instr) {ws : List Word} (h : ws.length = 1) :
    ∃ j, withOneOperand f ws = .ok j := by
  obtain ⟨w, rfl⟩ := List.length_eq_one_iff.mp h
  exact ⟨f w, rfl⟩

/-- An operation of two operand words decodes from two (R63). -/
theorem exists_withTwoOperands_eq_ok (f : Word → Word → Instr) {ws : List Word} (h : ws.length = 2) :
    ∃ j, withTwoOperands f ws = .ok j := by
  obtain ⟨v, d, rfl⟩ := List.length_eq_two.mp h
  exact ⟨f v d, rfl⟩

/-- Any other descriptor decodes with the operand words of its class. -/
theorem exists_decode_eq_ok_of_not_reserved {r : Request} (h : ¬ reservedDescriptor r.desc)
    (hlen : r.operands.length = operandCount (fieldCls r.desc)) : ∃ i, decode r = .ok i := by
  rw [reservedDescriptor_iff] at h
  push Not at h
  obtain ⟨⟨h6, h7⟩, hB, hS, hN3, hN4, hR⟩ := h
  have hcount {c : BitVec 3} (hc : fieldCls r.desc = c) : r.operands.length = operandCount c := hc ▸ hlen
  obtain hc | hc | hc | hc | hc | hc | hc | hc := class_cases (fieldCls r.desc)
  · rw [decode_of_readClass hc (hB (.inl hc))]
    exact exists_withoutOperands_eq_ok _ (hcount hc)
  · rw [decode_of_writeClass hc (hB (.inr hc))]
    exact exists_withOneOperand_eq_ok _ (hcount hc)
  · rw [decode_of_stimClass hc (hS hc)]
    exact exists_withoutOperands_eq_ok _ (hcount hc)
  · rw [decode_of_resetClass hc (hN3 hc)]
    exact exists_withoutOperands_eq_ok _ (hcount hc)
  · rw [decode_of_saveClass hc (hN4 hc)]
    exact exists_withoutOperands_eq_ok _ (hcount hc)
  · rw [decode_of_restoreClass hc (hR hc)]
    exact exists_withTwoOperands_eq_ok _ (hcount hc)
  · exact absurd hc h6
  · exact absurd hc h7

/-- A request that does not decode is not accepted (R61, R117). -/
theorem accept_request_of_decode_error {r : Request} {e : DecodeError} (hr : decode r = .error e) :
    accept (.request r) = .error (.undecodable e) := by rw [accept, hr]

/-! ## The descriptors of the assembler lines (R64) -/

/-- The descriptor of a `stim` line is format S. -/
theorem stimWord_eq_formatS (lvl : Bool) (pin : BitVec 6) :
    0x4000#16 ||| ((BitVec.ofBool lvl).setWidth 16 <<< 6) ||| pin.setWidth 16 = formatS lvl pin := by
  rw [bits_eq_iff]
  simp only [Nat.forall_lt_succ_right, formatS, BitVec.getLsbD_or, BitVec.getLsbD_append]
  simp

/-- The descriptor of a `restore` line is format R. -/
theorem restoreWord_eq_formatR (ver : BitVec 8) : 0xA000#16 ||| ver.setWidth 16 = formatR ver := by
  rw [bits_eq_iff]
  simp only [Nat.forall_lt_succ_right, formatR, BitVec.getLsbD_or, BitVec.getLsbD_append]
  simp

/-! ## The statements -/

/-- Settles O5: the decoder's side of the round trip. -/
theorem decodeOfEncodeIsTheOperation : Obligations.DecodeOfEncodeIsTheOperation :=
  fun i hwf => (decode_eq_ok_iff (encode i) i).mpr ⟨hwf, rfl⟩

/-- Settles O6: the encoder's side of the round trip. -/
theorem encodeOfDecodeIsTheRequest : Obligations.EncodeOfDecodeIsTheRequest :=
  fun r i h => (decode_eq_ok_iff r i).mp h

/-- Settles O8: the rows that fix their descriptor, the rows with fields, and the two invalid accesses as what is left of
their class. -/
theorem descriptorMatchesItsTableRow : Obligations.DescriptorMatchesItsTableRow := by
  intro r i h
  have hwf : i.wf = true := (wf_and_encode_of_decode h).1
  have hfull : r.desc &&& 0xFFFF#16 = r.desc := BitVec.and_allOnes
  have hrdIn : i = .rdIn ↔ r.desc = 0x1000#16 := eq_iff_desc h rfl
  have hrdOut : i = .rdOut ↔ r.desc = 0x1004#16 := eq_iff_desc h rfl
  have hrdDir : i = .rdDir ↔ r.desc = 0x1008#16 := eq_iff_desc h rfl
  have hwrIn : (∃ w, i = .wrIn w) ↔ r.desc = 0x3000#16 :=
    exists_word_eq_iff_desc h fun w => decode_encode (i := .wrIn w) rfl
  have hwrOut : (∃ w, i = .wrOut w) ↔ r.desc = 0x3004#16 :=
    exists_word_eq_iff_desc h fun w => decode_encode (i := .wrOut w) rfl
  have hwrDir : (∃ w, i = .wrDir w) ↔ r.desc = 0x3008#16 :=
    exists_word_eq_iff_desc h fun w => decode_encode (i := .wrDir w) rfl
  rw [hfull, exists_rdBad_iff hwf, exists_wrBad_iff hwf, exists_readAt_iff_mask h, exists_writeAt_iff_mask h, Ne, Ne, Ne,
    hrdIn, hrdOut, hrdDir, hwrIn, hwrOut, hwrDir]
  exact ⟨Iff.rfl, Iff.rfl, Iff.rfl, Iff.rfl, Iff.rfl, Iff.rfl, Iff.rfl, Iff.rfl, exists_stim_iff_mask h,
    eq_iff_desc h rfl, eq_iff_desc h rfl, exists_restore_iff_mask h⟩

/-- Settles O10: the request is the encoding of its operation, which carries the operand words of its class. -/
theorem requestLengthFollowsFromTheClass : Obligations.RequestLengthFollowsFromTheClass := by
  intro r i h
  refine ⟨by rw [Request.bitLength, operands_length_of_decode h], ?_⟩
  obtain ⟨_, rfl⟩ := wf_and_encode_of_decode h
  cases i <;> rfl

/-- Settles O9: the reserved descriptors are those of class 110 or 111 or with a reserved field that is not clear. -/
theorem reservedDescriptorsAndOnlyTheyAreRefused : Obligations.ReservedDescriptorsAndOnlyTheyAreRefused := by
  refine fun D ws => ⟨fun hres => ?_, exists_decode_eq_ok_of_not_reserved (r := ⟨D, ws⟩)⟩
  obtain ⟨e, he⟩ := exists_decode_eq_error_of_reserved (r := ⟨D, ws⟩) hres
  exact ⟨e, he, fun s rest hp => step_of_accept_error hp (accept_request_of_decode_error he)⟩

/-- Settles O12: each line's descriptor is the format of its operation. -/
theorem notationNamesItsOperation : Obligations.NotationNamesItsOperation := by
  refine ⟨decode_encode (i := .rdIn) rfl, decode_encode (i := .rdOut) rfl, decode_encode (i := .rdDir) rfl,
    fun w => decode_encode (i := .wrIn w) rfl, fun w => decode_encode (i := .wrOut w) rfl,
    fun w => decode_encode (i := .wrDir w) rfl, fun r => ?_, fun r w => ?_, decode_formatB_read, decode_formatB_write,
    fun pin lvl => ?_, decode_encode (i := .reset) rfl, decode_encode (i := .save) rfl, fun ver v d => ?_⟩
  · cases r <;> rfl
  · cases r <;> rfl
  · rw [Asm.request, stimWord_eq_formatS, decode_formatS]
  · rw [Asm.request, restoreWord_eq_formatR, decode_formatR]

/-- Settles O7: the seven examples that decode are encodings of well-formed operations, and the other two have a nonzero
reserved field and a reserved class. -/
theorem encodingExamplesDecode : Obligations.EncodingExamplesDecode :=
  ⟨rfl, decode_encode (i := .wrDir 0x00000001#32) rfl, rfl, decode_encode (i := .rdBad 0x04#8 .b1) rfl,
    rfl, decode_encode (i := .rdBad 0x0C#8 .b4) rfl, rfl, decode_encode (i := .wrBad 0x06#8 .b4 5#32) rfl,
    rfl, decode_encode (i := .stim 1 true) rfl, rfl, decode_encode (i := .stim 40 false) rfl,
    rfl, decode_encode (i := .restore 1#8 3#32 1#32) rfl, fun _ hc => exec_stim_range false (by omega),
    decode_of_readClass_reserved (by decide) (by decide), decode_of_reservedClass (.inl (by decide))⟩

/-- Settles O13: each expansion is one of the assembler lines, and its operation is the one O12 gives for that line. -/
theorem pseudoInstructionsExpand : Obligations.PseudoInstructionsExpand := by
  obtain ⟨hrdIn, -, -, hwrIn, hwrOut, hwrDir, -⟩ := notationNamesItsOperation
  refine ⟨hwrOut, hwrDir, hwrDir 0#32, hrdIn, hwrIn 0#32, exec_wrIn 0#32, fun s => ?_⟩
  exact ⟨_, exec_wrDir 0#32 s, BitVec.zero_and⟩

end Sys2Proof.Machine
end

section
/-! Invalid accesses (R70, R77), `DIR` writes (R76), the diagnostic numbers (R100), snapshots (R94 to R99) and byte lanes
(R33). -/

namespace Sys2Proof.Machine

/-! ## Invalid accesses (R70, R77) -/

/-- The width check, on the width itself. -/
theorem bytes_eq_four_iff (sz : Width) : sz.bytes = 4 ↔ sz = .b4 := by
  cases sz <;> decide

/-- The alignment check, on the two low bits of the offset (R36). -/
theorem lowBits_ne_zero_iff (off : BitVec 8) :
    off.extractLsb' 0 2 ≠ 0#2 ↔ off.getLsbD 0 = true ∨ off.getLsbD 1 = true := by
  have hbits : ∀ x : BitVec 2, x ≠ 0#2 ↔ x.getLsbD 0 = true ∨ x.getLsbD 1 = true := by decide
  rw [hbits, BitVec.getLsbD_extractLsb', BitVec.getLsbD_extractLsb']
  exact Iff.rfl

/-- Every byte lane of the word 0 is 0 (R33, D11). -/
theorem laneByte_zero (k : Nat) : laneByte 0#32 k = 0#8 := BitVec.extractLsb'_zero

/-- A read of any width returns the word 0 as zero bytes. -/
theorem replyBytes_zero (n : Nat) : replyBytes n 0#32 = List.replicate n 0#8 := by
  simp [replyBytes, List.eq_replicate_iff, laneByte_zero]

/-! ## Diagnostic numbers (R100) -/

/-- The diagnostic codes in the order of their numbers. -/
def diagCodes : List DiagCode :=
  [.rdBadSize, .rdMisaligned, .rdBadOffset, .wrBadSize, .wrMisaligned, .wrBadOffset, .stimPinRange, .restoreBadVersion]

/-- Every code is in the list. -/
theorem mem_diagCodes (c : DiagCode) : c ∈ diagCodes := by
  cases c <;> decide

/-- The numbers of the list are 1 to 8 (R100). -/
theorem map_number_diagCodes : diagCodes.map DiagCode.number = [1, 2, 3, 4, 5, 6, 7, 8] := rfl

/-! ## `DIR` writes and snapshots -/

/-- With 32 pins nothing is masked (R6). -/
theorem maskPins_of_32 {c : Config} (hc : c.pinCount = 32) (w : Word) : maskPins c w = w :=
  maskPins_eq_self hc.le fun _ hi => BitVec.getLsbD_of_ge w _ (hc ▸ hi)

/-- Under the invariant `value` has no bit for `PIN_MASK` to drop (R18). -/
theorem State.Inv.maskPins_value {s : State} (h : s.Inv) : maskPins s.cfg s.value = s.value := by
  obtain ⟨hcfg, hv, _⟩ := (State.inv_iff s).mp h
  exact maskPins_eq_self (pinCount_le_of_configOk hcfg).2 hv

/-! ## Byte lanes (R33) -/

/-- Bit `j` of a byte lane. -/
theorem laneByte_getLsbD (w : Word) (k : Nat) {j : Nat} (hj : j < 8) :
    (laneByte w k).getLsbD j = w.getLsbD (8 * k + j) := by
  simp [laneByte, hj]

/-- The register part of a window offset is the multiple of 4 at or below it. -/
theorem registerPart_toNat (off : BitVec 8) : (off &&& 0xFC#8).toNat = 4 * (off.toNat / 4) := by
  revert off; decide

/-- The lane part of a window offset is its remainder. -/
theorem lanePart_toNat (off : BitVec 8) : (off &&& 0x03#8).toNat = off.toNat % 4 :=
  (BitVec.toNat_and ..).trans (Nat.and_two_pow_sub_one_eq_mod _ 2)

/-- No register lies at an offset of 0x0C or more (R32). -/
theorem registerAt_eq_none (s : State) {off : BitVec 8} (h : 0x0C ≤ off.toNat) : registerAt s off = none := by
  have hno : ¬(off = 0x00#8 ∨ off = 0x04#8 ∨ off = 0x08#8) := by
    rw [offset_of_register_iff]; omega
  push Not at hno
  obtain ⟨h0, h4, h8⟩ := hno
  rw [registerAt, if_neg h0, if_neg h4, if_neg h8]

/-- The four bytes from an aligned register's offset on are its lanes. -/
theorem windowByte_add {s : State} {off : BitVec 8} {w : Word} {k : Nat} (hw : registerAt s off = some w)
    (halign : off.toNat % 4 = 0) (hk : k < 4) :
    windowByte s (BitVec.ofNat 8 (off.toNat + k)) = some (laneByte w k) := by
  have hlt : off.toNat < 256 := off.isLt
  have hreg : BitVec.ofNat 8 (off.toNat + k) &&& 0xFC#8 = off := by
    apply BitVec.eq_of_toNat_eq
    rw [registerPart_toNat, BitVec.toNat_ofNat]
    omega
  have hlane : (BitVec.ofNat 8 (off.toNat + k) &&& 0x03#8).toNat = k := by
    rw [lanePart_toNat, BitVec.toNat_ofNat]
    omega
  rw [windowByte, hreg, hlane, hw, Option.map_some]

/-! ## The statements -/

/-- Settles O27: the request decodes to the read that selects no register, whose diagnostic is `readDiag`, with the checks
stated on the width and on the two low offset bits. -/
theorem invalidReadReportsAndReturnsZero : Obligations.InvalidReadReportsAndReturnsZero := by
  refine fun off sz s => ⟨fun hs => ?_, ?_, replyBytes_zero _⟩
  · rw [decode_formatB_read, readAt_of_not_selects hs]
  · rw [exec_rdBad, readDiag]
    simp only [Ne, bytes_eq_four_iff, ← lowBits_ne_zero_iff]
    rfl

/-- Settles O33: as O27, for a write and `writeDiag`. -/
theorem invalidWriteReportsAndIsDropped : Obligations.InvalidWriteReportsAndIsDropped := by
  refine fun off sz w s => ⟨fun hs => ?_, ?_⟩
  · rw [decode_formatB_write, writeAt_of_not_selects w hs]
  · rw [exec_wrBad, writeDiag]
    simp only [Ne, bytes_eq_four_iff, ← lowBits_ne_zero_iff]
    rfl

/-- Settles O32: `direction` becomes the masked word, and `valueAfterDir` is the two readings of I1. -/
theorem dirWriteReplacesDirection : Obligations.DirWriteReplacesDirection := by
  refine ⟨fun w => decode_encode (i := .wrDir w) rfl, fun w s hc => ?_⟩
  refine ⟨s.after (.wrDir w), exec_eq_after _ s, fun i => maskPins_getLsbD s.cfg w i hc, fun h32 => maskPins_of_32 h32 w,
    State.after_wrDir_value_of_keeps w, fun hclears i => ?_, rfl, rfl, rfl, fun e he => ?_, State.after_wrDir_eq_self⟩
  · rw [State.after_value, valueAfter, valueAfterDir_getLsbD, hclears, Bool.true_and]
    rfl
  · obtain ⟨i, b, rfl⟩ := eq_dirNotify_of_mem_edgeDir he
    rfl

/-- Settles O47: the descriptor is the encoding of `SAVE`, which only emits the snapshot. -/
theorem saveExportsBothWords : Obligations.SaveExportsBothWords :=
  ⟨decode_encode (i := .save) rfl, exec_save⟩

/-- Settles O48: the descriptor is format R; version 1 masks both words, whose bits `maskPins_getLsbD` gives, and another
version only raises the diagnostic. -/
theorem restoreLoadsBothWordsOrRejects : Obligations.RestoreLoadsBothWordsOrRejects := by
  refine ⟨fun ver v d => by rw [restoreWord_eq_formatR, decode_formatR], fun v d s => ⟨fun hc => ?_, fun ver hver => ?_⟩⟩
  · exact ⟨_, exec_restore_known v d s, fun i => maskPins_getLsbD s.cfg v i hc, fun i => maskPins_getLsbD s.cfg d i hc,
      rfl, rfl, rfl⟩
  · exact exec_restore_unknown v d s hver

/-- Settles O41: the numbers of the eight codes are eight different numbers. -/
theorem diagnosticCodesAreNumbered : Obligations.DiagnosticCodesAreNumbered := by
  refine ⟨map_number_diagCodes, fun c d h => ?_⟩
  have hnodup : (diagCodes.map DiagCode.number).Nodup := by
    rw [map_number_diagCodes]; decide
  exact List.inj_on_of_nodup_map hnodup (mem_diagCodes c) (mem_diagCodes d) h

/-- Settles O49: the exported words are the two of the saved state, which masking keeps. -/
theorem saveThenRestoreGivesTheWordsBack : Obligations.SaveThenRestoreGivesTheWordsBack := by
  intro s s' v d hs hsave htrace t ht
  obtain rfl := eq_after_of_exec hsave
  obtain ⟨rfl, rfl⟩ : s.value = v ∧ s.direction = d := by
    simpa [eventsOf] using htrace
  refine ⟨_, exec_restore_known _ _ t, ?_, ?_, rfl, rfl⟩
  · simp [ht, hs.maskPins_value]
  · simp [ht, hs.maskPins_direction]

/-- Settles O58: the three registers lie at multiples of 4, and the register part of an offset from 0x0C on is that of no
register. -/
theorem byteLanesAreLittleEndian : Obligations.ByteLanesAreLittleEndian := by
  intro s k hk
  have hin := windowByte_add (s := s) (off := 0x00#8) rfl rfl hk
  have hout := windowByte_add (s := s) (off := 0x04#8) rfl rfl hk
  have hdir := windowByte_add (s := s) (off := 0x08#8) rfl rfl hk
  rw [BitVec.toNat_ofNat, Nat.zero_mod, Nat.zero_add] at hin
  refine ⟨⟨_, _, _, hin, hout, hdir, fun j hj => ?_⟩, fun off hoff => ?_⟩
  · exact ⟨laneByte_getLsbD _ k hj, laneByte_getLsbD _ k hj, laneByte_getLsbD _ k hj⟩
  · have hreg : 0x0C ≤ (off &&& 0xFC#8).toNat := by
      rw [registerPart_toNat]; omega
    rw [windowByte, registerAt_eq_none s hreg, Option.map_none]

end Sys2Proof.Machine
end
